-- ==== Sys2Proof/Word.lean ====
section
/-! DEFINITION. The widths of THE CORE's values (00_scope.md R7, R8). -/

namespace Sys2Proof

/-- A 16-bit value: every register, IP, FLAGS and every address an instruction forms (R7: `REG_WIDTH`, `ADDR_WIDTH`). -/
abbrev Word := BitVec 16

/-- An 8-bit value: a byte view or a byte of memory (R7: `BYTE_REG_WIDTH`; R8: "A byte is 8 bits"). -/
abbrev Byte := BitVec 8

end Sys2Proof
end

