-- ==== Sys2Proof/Syntax.lean ====
section
/-! DEFINITION. Register names and the instruction type: one constructor for each of the 14 rows of
spec/opcode_table.json. -/

namespace Sys2Proof

/-- The four general registers, which have byte views (10_state.md R22). XOR's destination is one of them
(41_alu.md R140: index 0 to 3). -/
inductive GenReg where
  | ax | cx | dx | bx
  deriving DecidableEq, Repr

/-- The eight 16-bit registers of the canonical index table (10_state.md R26). -/
inductive Reg16 where
  | ax | cx | dx | bx | sp | bp | si | di
  deriving DecidableEq, Repr

/-- The eight byte views (10_state.md R27). -/
inductive Reg8 where
  | al | cl | dl | bl | ah | ch | dh | bh
  deriving DecidableEq, Repr

/-- The four segment placeholders (10_state.md R34; the names are the spec's own, log entry 6). -/
inductive SegReg where
  | es | cs | ss | ds
  deriving DecidableEq, Repr

/-- The instructions. Operands are those of 30_encoding.md R97. -/
inductive Instr where
  /-- XOR r16, r16 (R140). `src` is the source index `reg div 8`, 0 to 31: 0 to 7 name a register, and 8 to 31 are what
  a pair byte below 0xC0 gives, for which the instruction raises `InvalidOperand` (R93). -/
  | xor (dst : GenReg) (src : Fin 32)
  /-- PUSH r16 (R150). -/
  | push (r : Reg16)
  /-- POP r16 (R151). -/
  | pop (r : Reg16)
  /-- MOV AL, [imm16] (R160). -/
  | movAlMoffs (addr : Word)
  /-- MOV AX, [imm16] as observed, opcode 0xA1 (R161). -/
  | movAxMoffsObserved (addr : Word)
  /-- MOV r8, imm8 (R162). -/
  | movR8Imm8 (r : Reg8) (imm : Byte)
  /-- MOV r16, imm16 (R163). -/
  | movR16Imm16 (r : Reg16) (imm : Word)
  /-- JMP rel8 (R170); `rel` is the displacement byte. -/
  | jmpRel8 (rel : Byte)
  /-- HLT (R171). -/
  | hlt
  /-- CLC (R180). -/
  | clc
  /-- CLI (R181). -/
  | cli
  /-- STI (R182). -/
  | sti
  /-- CLD (R183). -/
  | cld
  /-- STD (R184). -/
  | std
  deriving DecidableEq, Repr

end Sys2Proof
end

