-- ==== Sys2Proof/WellFormed.lean ====
section
/-! DEFINITION. Which instructions are legal (30_encoding.md R102). -/

namespace Sys2Proof

/-- R102: "the only illegal operand value is a register pair byte p < 0xC0 for XOR", which is a source index above 7
(R93). Every other operand value is legal. An ill-formed XOR still has a meaning: it raises `InvalidOperand`. -/
def Instr.wellFormed : Instr → Bool
  | .xor _ src => decide (src.val < 8)
  | .push _ => true
  | .pop _ => true
  | .movAlMoffs _ => true
  | .movAxMoffsObserved _ => true
  | .movR8Imm8 _ _ => true
  | .movR16Imm16 _ _ => true
  | .jmpRel8 _ => true
  | .hlt => true
  | .clc => true
  | .cli => true
  | .sti => true
  | .cld => true
  | .std => true

end Sys2Proof
end

