-- ==== Sys2Proof/Decode.lean ====
section
/-! DEFINITION. The decoder, from bytes to an instruction or a named rejection, and after it the encoder, both from the
tables of 30_encoding.md. -/

namespace Sys2Proof

/-! ### Register index tables -/

/-- The 16-bit canonical index (10_state.md R26). -/
def Reg16.code : Reg16 → Nat
  | .ax => 0
  | .cx => 1
  | .dx => 2
  | .bx => 3
  | .sp => 4
  | .bp => 5
  | .si => 6
  | .di => 7

/-- The register a 16-bit index names; none outside 0 to 7 (R26, R28). -/
def Reg16.ofCode? : Nat → Option Reg16
  | 0 => some .ax
  | 1 => some .cx
  | 2 => some .dx
  | 3 => some .bx
  | 4 => some .sp
  | 5 => some .bp
  | 6 => some .si
  | 7 => some .di
  | _ => none

/-- The 8-bit canonical index (10_state.md R27). -/
def Reg8.code : Reg8 → Nat
  | .al => 0
  | .cl => 1
  | .dl => 2
  | .bl => 3
  | .ah => 4
  | .ch => 5
  | .dh => 6
  | .bh => 7

/-- The byte view an 8-bit index names; none outside 0 to 7 (R27, R28). -/
def Reg8.ofCode? : Nat → Option Reg8
  | 0 => some .al
  | 1 => some .cl
  | 2 => some .dl
  | 3 => some .bl
  | 4 => some .ah
  | 5 => some .ch
  | 6 => some .dh
  | 7 => some .bh
  | _ => none

/-- A general register as a 16-bit register. -/
def GenReg.toReg16 : GenReg → Reg16
  | .ax => .ax
  | .cx => .cx
  | .dx => .dx
  | .bx => .bx

/-- The cell a byte view belongs to (10_state.md R23, R27). -/
def Reg8.cell : Reg8 → Reg16
  | .al => .ax
  | .cl => .cx
  | .dl => .dx
  | .bl => .bx
  | .ah => .ax
  | .ch => .cx
  | .dh => .dx
  | .bh => .bx

/-- Whether a byte view is the high byte of its cell (10_state.md R23, R27). -/
def Reg8.isHigh : Reg8 → Bool
  | .al => false
  | .cl => false
  | .dl => false
  | .bl => false
  | .ah => true
  | .ch => true
  | .dh => true
  | .bh => true

/-- The 16-bit register a three-bit opcode field names: every value names one (30_encoding.md R92). -/
def Reg16.ofField (f : Fin 8) : Reg16 :=
  match f with
  | 0 => .ax
  | 1 => .cx
  | 2 => .dx
  | 3 => .bx
  | 4 => .sp
  | 5 => .bp
  | 6 => .si
  | 7 => .di

/-- The byte view a three-bit opcode field names (30_encoding.md R92). -/
def Reg8.ofField (f : Fin 8) : Reg8 :=
  match f with
  | 0 => .al
  | 1 => .cl
  | 2 => .dl
  | 3 => .bl
  | 4 => .ah
  | 5 => .ch
  | 6 => .dh
  | 7 => .bh

/-- XOR's destination, index 0 to 3 of the 16-bit table (30_encoding.md R93). -/
def GenReg.ofField (f : Fin 4) : GenReg :=
  match f with
  | 0 => .ax
  | 1 => .cx
  | 2 => .dx
  | 3 => .bx

/-! ### Fields -/

/-- `opcode[2:0]` (30_encoding.md R92). -/
def registerField (op : Byte) : Fin 8 :=
  (op.extractLsb' 0 3).toFin

/-- The 8-bit subtraction `reg = (p - 0xC0) mod 2^8` (30_encoding.md R93). -/
def pairReg (p : Byte) : Byte :=
  p - 0xC0#8

/-- The destination index `reg mod 4` (R93): `p[2]` plays no part in it. -/
def pairDst (p : Byte) : GenReg :=
  GenReg.ofField ⟨(pairReg p).toNat % 4, Nat.mod_lt _ (by decide)⟩

/-- The source index `reg div 8`, 0 to 31 (R93). -/
def pairSrc (p : Byte) : Fin 32 :=
  ⟨(pairReg p).toNat / 8, by have := (pairReg p).isLt; omega⟩

/-- A word from its two bytes, low byte first: `lo OR (hi << 8)` (20_memory.md R65, R68; 30_encoding.md R95). -/
def wordOfBytes (lo hi : Byte) : Word :=
  lo.setWidth 16 ||| (hi.setWidth 16 <<< 8)

/-- Bits 7 to 0 of a word. -/
def lowByte (v : Word) : Byte :=
  v.extractLsb' 0 8

/-- Bits 15 to 8 of a word. -/
def highByte (v : Word) : Byte :=
  v.extractLsb' 8 8

/-! ### The opcode table -/

/-- The handler an opcode byte selects (40_sequencer.md R123). -/
inductive Handler where
  | xor | push | pop | movAlMoffs | movAxMoffsObserved | movR8Imm8 | movR16Imm16 | jmpRel8
  | hlt | clc | cli | sti | cld | std
  deriving DecidableEq, Repr

/-- The operand bytes that follow the opcode: none, one byte, or one little-endian word (30_encoding.md R90, R98). -/
inductive OperandSize where
  | none | byte | word
  deriving DecidableEq, Repr

/-- How many bytes an operand takes. -/
def OperandSize.bytes : OperandSize → Nat
  | .none => 0
  | .byte => 1
  | .word => 2

/-- One row of the table: the opcode bytes `op` with `op AND mask = pattern` select `handler`. -/
structure OpcodeRow where
  mask : Byte
  pattern : Byte
  handler : Handler
  deriving DecidableEq, Repr

/-- The 14 rows of spec/opcode_table.json ("match" and "mask" of byte 0), in its order. -/
def opcodeTable : List OpcodeRow :=
  [ ⟨0xFF#8, 0x31#8, .xor⟩,
    ⟨0xF8#8, 0x50#8, .push⟩,
    ⟨0xF8#8, 0x58#8, .pop⟩,
    ⟨0xFF#8, 0xA0#8, .movAlMoffs⟩,
    ⟨0xFF#8, 0xA1#8, .movAxMoffsObserved⟩,
    ⟨0xF8#8, 0xB0#8, .movR8Imm8⟩,
    ⟨0xF8#8, 0xB8#8, .movR16Imm16⟩,
    ⟨0xFF#8, 0xEB#8, .jmpRel8⟩,
    ⟨0xFF#8, 0xF4#8, .hlt⟩,
    ⟨0xFF#8, 0xF8#8, .clc⟩,
    ⟨0xFF#8, 0xFA#8, .cli⟩,
    ⟨0xFF#8, 0xFB#8, .sti⟩,
    ⟨0xFF#8, 0xFC#8, .cld⟩,
    ⟨0xFF#8, 0xFD#8, .std⟩ ]

/-- Whether a row matches an opcode byte. -/
def OpcodeRow.matchesOpcode (row : OpcodeRow) (op : Byte) : Bool :=
  op &&& row.mask == row.pattern

/-- Dispatch of an opcode byte; none for the 214 invalid values (30_encoding.md R99, R100; 40_sequencer.md R123). -/
def handlerOf (op : Byte) : Option Handler :=
  (opcodeTable.find? (fun row => row.matchesOpcode op)).map OpcodeRow.handler

/-- The length table of 30_encoding.md R98. -/
def Handler.operandSize : Handler → OperandSize
  | .xor => .byte
  | .push => .none
  | .pop => .none
  | .movAlMoffs => .word
  | .movAxMoffsObserved => .word
  | .movR8Imm8 => .byte
  | .movR16Imm16 => .word
  | .jmpRel8 => .byte
  | .hlt => .none
  | .clc => .none
  | .cli => .none
  | .sti => .none
  | .cld => .none
  | .std => .none

/-- The instruction of a handler, from the opcode byte and the operand read (a one-byte operand in bits 7 to 0, zero where
there is none). Fields: 30_encoding.md R92 to R96. -/
def Handler.instr (h : Handler) (op : Byte) (operand : Word) : Instr :=
  match h with
  | .xor => .xor (pairDst (lowByte operand)) (pairSrc (lowByte operand))
  | .push => .push (Reg16.ofField (registerField op))
  | .pop => .pop (Reg16.ofField (registerField op))
  | .movAlMoffs => .movAlMoffs operand
  | .movAxMoffsObserved => .movAxMoffsObserved operand
  | .movR8Imm8 => .movR8Imm8 (Reg8.ofField (registerField op)) (lowByte operand)
  | .movR16Imm16 => .movR16Imm16 (Reg16.ofField (registerField op)) operand
  | .jmpRel8 => .jmpRel8 (lowByte operand)
  | .hlt => .hlt
  | .clc => .clc
  | .cli => .cli
  | .sti => .sti
  | .cld => .cld
  | .std => .std

/-! ### Decoding a list of bytes -/

/-- Why a list of bytes is no instruction. -/
inductive DecodeReject where
  /-- There is no byte to decode. -/
  | noBytes
  /-- The first byte is one of the 214 invalid opcodes (R100). -/
  | invalidOpcode (op : Byte)
  /-- The list ends before the operand of a valid opcode does. -/
  | truncated (op : Byte)
  deriving DecidableEq, Repr

/-- Take an operand from the front of a list. -/
def takeOperand : OperandSize → List Byte → Option (Word × List Byte)
  | .none, rest => some (0#16, rest)
  | .byte, b :: rest => some (wordOfBytes b 0#8, rest)
  | .word, lo :: hi :: rest => some (wordOfBytes lo hi, rest)
  | .byte, [] => none
  | .word, [] => none
  | .word, [_] => none

/-- Decode the first instruction of a list of bytes, in address order, and give back the bytes after it. The decoder accepts
every pair byte of XOR: 30_encoding.md R93 gives those below 0xC0 a source index of 8 to 31, and the instruction itself raises
`InvalidOperand` (41_alu.md R140). -/
def decode : List Byte → Except DecodeReject (Instr × List Byte)
  | [] => .error .noBytes
  | op :: rest =>
    match handlerOf op with
    | none => .error (.invalidOpcode op)
    | some h =>
      match takeOperand h.operandSize rest with
      | none => .error (.truncated op)
      | some (operand, rest') => .ok (h.instr op operand, rest')

/-! ### The host's numbering of an instruction's bits -/

/-- The three bytes, lowest address first, of an instruction whose bits are `w`, bit 0 the least significant bit of the first
byte, with the bits from `nbits` up at 0. Three bytes is the longest instruction (R90). -/
def tableBytes (nbits w : Nat) : List Byte :=
  let v := w % 2 ^ nbits
  [BitVec.ofNat 8 v, BitVec.ofNat 8 (v / 0x100), BitVec.ofNat 8 (v / 0x10000)]

/-- The instruction the decoder reads from those bytes; none where it rejects them. -/
def decodeTableWord (nbits w : Nat) : Option Instr :=
  match decode (tableBytes nbits w) with
  | .ok (i, _) => some i
  | .error _ => none

/-! ### Encoding -/

/-- The pair byte of a destination and a source index (30_encoding.md R103: `0xC0 OR (src << 3) OR dst`, with 0 in `p[2]`);
for a source index of 8 to 31, which R103 does not encode, it is the model's own extension: the byte below 0xC0 that R93 maps to it,
by the same 8-bit arithmetic (log entry 9). -/
def pairByte (dst : GenReg) (src : Fin 32) : Byte :=
  BitVec.ofNat 8 (src.val * 8 + dst.toReg16.code) + 0xC0#8

/-- The bytes of an instruction, in address order (the encodings of 30_encoding.md R103; of XOR with a source index of 8 to 31, see
`pairByte`). -/
def encode : Instr → List Byte
  | .xor dst src => [0x31#8, pairByte dst src]
  | .push r => [0x50#8 + BitVec.ofNat 8 r.code]
  | .pop r => [0x58#8 + BitVec.ofNat 8 r.code]
  | .movAlMoffs addr => [0xA0#8, lowByte addr, highByte addr]
  | .movAxMoffsObserved addr => [0xA1#8, lowByte addr, highByte addr]
  | .movR8Imm8 r imm => [0xB0#8 + BitVec.ofNat 8 r.code, imm]
  | .movR16Imm16 r imm => [0xB8#8 + BitVec.ofNat 8 r.code, lowByte imm, highByte imm]
  | .jmpRel8 rel => [0xEB#8, rel]
  | .hlt => [0xF4#8]
  | .clc => [0xF8#8]
  | .cli => [0xFA#8]
  | .sti => [0xFB#8]
  | .cld => [0xFC#8]
  | .std => [0xFD#8]

end Sys2Proof
end

