-- ==== Sys2Proof/Config.lean ====
section
/-! DEFINITION. The implementation parameters of 00_scope.md R7, at this hardware's values.
`INIT_MEM` and `INIT_FAULT_ADDR` are launch inputs, arguments of `Sys2Proof.Machine.boot`, and not constants. -/

namespace Sys2Proof

/-- `MEM_SIZE`: bytes of the memory array, 640 KiB (R7, R60; exactly this by 90_conflicts.md C3, log entry 19). -/
def Config.memSize : Nat := 655360

/-- `LOAD_ADDR`: where the boot image goes, and the initial IP (R7, R231, R233). -/
def Config.loadAddr : Word := 0x7C00#16

/-- `IMAGE_SIZE`: bytes of the boot image copied to `LOAD_ADDR` (R7, R231). -/
def Config.imageSize : Nat := 512

/-- `INIT_SP`: the initial stack pointer (R7, R231). -/
def Config.initSp : Word := 0x7B00#16

/-- `MOV_A1_LOADS_WORD`: false, opcode 0xA1 loads one byte into AL "as observed" (R7, R161; log entry 11). -/
def Config.movA1LoadsWord : Bool := false

end Sys2Proof
end

