-- ==== Sys2Proof/Machine/State.lean ====
section
/-! DEFINITION. The machine state of 10_state.md R20, its reset value (R43) and the reasons a step could stop. -/

namespace Sys2Proof.Machine

/-- The memory array (20_memory.md R60), as (index, byte) pairs in the canonical form `Memory.wf`: indices strictly rising,
and no entry equal to what an unlisted index reads as (`Memory.unlisted`, log entry 1). -/
abbrev Memory := List Host.Cell

/-- The run state (10_state.md R40). -/
inductive RunState where
  | running
  | halted
  | faulted
  deriving DecidableEq, Repr

/-- The width n of an access, 1 or 2 bytes (10_state.md R42: "n in {1, 2}"). -/
inductive AccessWidth where
  | byte
  | word
  deriving DecidableEq, Repr

/-- The stop record (10_state.md R42, 60_exceptions.md R200). -/
inductive StopRecord where
  /-- No event. -/
  | none
  /-- HLT at this address. -/
  | hlt (addr : Word)
  /-- An invalid opcode byte and the address it was fetched from. -/
  | invalidOpcode (op : Byte) (addr : Word)
  /-- A memory access past the array: its address operand and width. -/
  | outOfBounds (a : Nat) (n : AccessWidth)
  /-- A register index outside 0 to 7. -/
  | invalidOperand (code : Nat)
  deriving DecidableEq, Repr

/-- The machine state, "this tuple, and nothing else" (10_state.md R20). -/
structure State where
  /-- General registers (R22). The byte views are computed from them. -/
  ax : Word
  cx : Word
  dx : Word
  bx : Word
  /-- Pointer and index registers (R29). -/
  sp : Word
  bp : Word
  si : Word
  di : Word
  /-- Instruction pointer (R31). -/
  ip : Word
  /-- Segment placeholders (R34). -/
  es : Word
  cs : Word
  ss : Word
  ds : Word
  /-- FLAGS, a 16-bit word (R35); its bits are read and written through Machine/Flags.lean. -/
  flags : Word
  /-- Run state (R40). -/
  run : RunState
  /-- Fault-reporting address (R41). -/
  faultAddr : Word
  /-- Stop record (R42). -/
  stop : StopRecord
  /-- The memory array (R60). -/
  mem : Memory
  deriving DecidableEq, Repr

/-- Faults: none. Every event of 60_exceptions.md R200 has its effect on the state given by the spec and is a next state, so
no step stops outside State (log entry 3). No constructor, so nobody raises one: this is safe. -/
inductive Fault where
  deriving DecidableEq, Repr

/-- Refusals. -/
inductive Refusal where
  /-- Raised by an arm of `exec` whose instruction has no meaning yet; safe. No arm raises it: all 14 have a meaning. -/
  | notModelled (mnemonic : String)
  deriving DecidableEq, Repr

/-- What a cycle answers. -/
abbrev Result := Host.Outcome State Fault Refusal

/-- The machine right after reset (10_state.md R43): all registers and flags zero but IP, SP and IF. `faultAddr`, which R43 calls
unspecified, is 0 here (log entry 2), and memory lists nothing (log entry 1). The boot procedure over its three launch inputs
(70_reset_and_hazards.md R230) is `boot`. -/
def State.reset : State :=
  { ax := 0#16, cx := 0#16, dx := 0#16, bx := 0#16
    sp := Config.initSp, bp := 0#16, si := 0#16, di := 0#16
    ip := Config.loadAddr
    es := 0#16, cs := 0#16, ss := 0#16, ds := 0#16
    flags := 0x0200#16
    run := .running
    faultAddr := 0#16
    stop := .none
    mem := [] }

end Sys2Proof.Machine
end

