-- ==== Sys2Proof/Machine/Memory.lean ====
section
/-! DEFINITION. The memory array as sparse data: reading and writing one byte of it, and its canonical form. -/

namespace Sys2Proof.Machine

/-- What an index that the list does not hold reads as (log entry 1: the spec leaves `INIT_MEM` open, 10_state.md R43). A
memory with other initial contents lists them. -/
def Memory.unlisted (_a : Nat) : Byte :=
  0#8

/-- `Mem[a]` (00_scope.md R10). -/
def Memory.read (a : Nat) : Memory → Byte
  | [] => Memory.unlisted a
  | cell :: rest => if a = cell.1 then cell.2 else Memory.read a rest

/-- List the byte `v` at index `a`. -/
def Memory.insert (a : Nat) (v : Byte) : Memory → Memory
  | [] => [(a, v)]
  | cell :: rest =>
    if a < cell.1 then (a, v) :: cell :: rest
    else if a = cell.1 then (a, v) :: rest
    else cell :: Memory.insert a v rest

/-- List no byte at index `a`. -/
def Memory.erase (a : Nat) (m : Memory) : Memory :=
  m.filter (fun cell => cell.1 != a)

/-- `Mem[a] <- v`: writing what an unlisted index reads as removes the entry, so equal memories are equal lists. -/
def Memory.write (a : Nat) (v : Byte) (m : Memory) : Memory :=
  if v = Memory.unlisted a then Memory.erase a m else Memory.insert a v m

/-- The canonical form: indices strictly rising and inside the array (20_memory.md R60), no entry equal to what an unlisted
index reads as. -/
def Memory.wf : Memory → Bool
  | [] => true
  | cell :: rest =>
    decide (cell.1 < Config.memSize) && cell.2 != Memory.unlisted cell.1
      && rest.all (fun later => decide (cell.1 < later.1)) && Memory.wf rest

/-- Write a list of bytes to consecutive indices from `a` up. -/
def Memory.writeBytes (a : Nat) : List Byte → Memory → Memory
  | [], m => m
  | v :: rest, m => Memory.writeBytes (a + 1) rest (Memory.write a v m)

/-- Read `n` consecutive bytes from index `a` up. -/
def Memory.readBytes (a : Nat) : Nat → Memory → List Byte
  | 0, _ => []
  | n + 1, m => Memory.read a m :: Memory.readBytes (a + 1) n m

end Sys2Proof.Machine
end

