-- ==== Sys2Proof/Machine/Ops.lean ====
section
/-! DEFINITION. The named operations over registers, sequencer state and memory, and the two ways a cycle ends a run: an error
(60_exceptions.md R204) and a halt (00_scope.md R12). The hardware has no trap entry and no trap return (60_exceptions.md R207,
R208), so these two are all of it. -/

namespace Sys2Proof.Machine

/-! ### Ends of a run -/

/-- The errors a statement can raise (60_exceptions.md R202, R203). -/
inductive Raised where
  | outOfBounds (a : Nat) (n : AccessWidth)
  | invalidOperand (code : Nat)
  deriving DecidableEq, Repr

/-- What an error leaves in `stop` (60_exceptions.md R204 item 4). -/
def Raised.record : Raised → StopRecord
  | .outOfBounds a n => .outOfBounds a n
  | .invalidOperand code => .invalidOperand code

/-- Set the stop record and the run state. -/
def State.endRun (s : State) (run : RunState) (stop : StopRecord) : State :=
  { s with run := run, stop := stop }

/-- The error outcome (60_exceptions.md R204): `s` holds the writes the cycle made before the statement that raised, which stay;
the record is written, `run <- Faulted`, and the cycle ends. The machine holds what happened, so this is a next state (log
entry 3). -/
def raiseError (e : Raised) (s : State) : Result :=
  .next (s.endRun .faulted e.record)

/-- `halt(cause)` (00_scope.md R12): `run <- Halted`, `stop <- cause`, and the cycle ends normally. -/
def haltWith (cause : StopRecord) (s : State) : Result :=
  .next (s.endRun .halted cause)

/-- Run one statement that may raise, in the state `s` the earlier statements left: go on with its value, or end the cycle with
the error outcome (00_scope.md R12). -/
def attempt {α : Type} (r : Except Raised α) (s : State) (k : α → Result) : Result :=
  match r with
  | .ok v => k v
  | .error e => raiseError e s

/-- The invalid opcode handler (40_sequencer.md R124): the byte and the address it was fetched from. -/
def haltInvalidOpcode (op : Byte) (s : State) : Result :=
  haltWith (.invalidOpcode op s.faultAddr) s

/-! ### Sequencer registers -/

/-- Step 1 of the cycle: `faultAddr <- IP` (40_sequencer.md R121). -/
def State.recordFaultAddr (s : State) : State :=
  { s with faultAddr := s.ip }

/-- `IP <- (IP + k) mod 2^16` for an integer k: the one way IP is written (10_state.md R32, 40_sequencer.md R129). -/
def State.advanceIp (s : State) (k : Int) : State :=
  { s with ip := BitVec.ofInt 16 ((s.ip.toNat : Int) + k) }

/-- Steps 1 and 2 of the cycle as far as they write state (40_sequencer.md R121, R122): what every handler starts from. -/
def State.beginCycle (s : State) : State :=
  s.recordFaultAddr.advanceIp 1

/-! ### Registers -/

/-- `Reg16[r]` (10_state.md R26). -/
def State.reg16 (s : State) (r : Reg16) : Word :=
  match r with
  | .ax => s.ax
  | .cx => s.cx
  | .dx => s.dx
  | .bx => s.bx
  | .sp => s.sp
  | .bp => s.bp
  | .si => s.si
  | .di => s.di

/-- `Reg16[r] <- v` (10_state.md R25). -/
def State.setReg16 (s : State) (r : Reg16) (v : Word) : State :=
  match r with
  | .ax => { s with ax := v }
  | .cx => { s with cx := v }
  | .dx => { s with dx := v }
  | .bx => { s with bx := v }
  | .sp => { s with sp := v }
  | .bp => { s with bp := v }
  | .si => { s with si := v }
  | .di => { s with di := v }

/-- `Reg8[r]`: `X[15:8]` or `X[7:0]` of its cell X (10_state.md R22, R27). -/
def State.reg8 (s : State) (r : Reg8) : Byte :=
  if r.isHigh then highByte (s.reg16 r.cell) else lowByte (s.reg16 r.cell)

/-- `X` with its low byte replaced: `(X AND 0xFF00) OR v` (10_state.md R24). -/
def withLowByte (x : Word) (v : Byte) : Word :=
  (x &&& 0xFF00#16) ||| v.setWidth 16

/-- `X` with its high byte replaced: `(X AND 0x00FF) OR (v << 8)` (10_state.md R24). -/
def withHighByte (x : Word) (v : Byte) : Word :=
  (x &&& 0x00FF#16) ||| (v.setWidth 16 <<< 8)

/-- `Reg8[r] <- v` (10_state.md R24). -/
def State.setReg8 (s : State) (r : Reg8) (v : Byte) : State :=
  s.setReg16 r.cell
    (if r.isHigh then withHighByte (s.reg16 r.cell) v else withLowByte (s.reg16 r.cell) v)

/-- A segment placeholder (10_state.md R34); only the host reads it. -/
def State.segReg (s : State) (r : SegReg) : Word :=
  match r with
  | .es => s.es
  | .cs => s.cs
  | .ss => s.ss
  | .ds => s.ds

/-! ### The register file's access contract (10_state.md R28) -/

/-- `get16(code)`. -/
def get16 (code : Nat) (s : State) : Except Raised Word :=
  match Reg16.ofCode? code with
  | some r => .ok (s.reg16 r)
  | none => .error (.invalidOperand code)

/-- `set16(code, value)`. -/
def set16 (code : Nat) (v : Word) (s : State) : Except Raised State :=
  match Reg16.ofCode? code with
  | some r => .ok (s.setReg16 r v)
  | none => .error (.invalidOperand code)

/-- `get8(code)`. -/
def get8 (code : Nat) (s : State) : Except Raised Byte :=
  match Reg8.ofCode? code with
  | some r => .ok (s.reg8 r)
  | none => .error (.invalidOperand code)

/-- `set8(code, value)`. -/
def set8 (code : Nat) (v : Byte) (s : State) : Except Raised State :=
  match Reg8.ofCode? code with
  | some r => .ok (s.setReg8 r v)
  | none => .error (.invalidOperand code)

/-! ### Memory primitives -/

/-- Replace the memory array. -/
def State.setMem (s : State) (m : Memory) : State :=
  { s with mem := m }

/-- `Mem[a]` of a state. -/
def State.byteAt (s : State) (a : Nat) : Byte :=
  s.mem.read a

/-- `MemRead(a, 1)` (20_memory.md R63). -/
def memRead8 (a : Nat) (s : State) : Except Raised Byte :=
  if Config.memSize ≤ a then .error (.outOfBounds a .byte) else .ok (s.byteAt a)

/-- `MemRead(a, 2)` (20_memory.md R65): `a + 1` does not wrap. -/
def memRead16 (a : Nat) (s : State) : Except Raised Word :=
  if Config.memSize ≤ a + 1 then .error (.outOfBounds a .word)
  else .ok (wordOfBytes (s.byteAt a) (s.byteAt (a + 1)))

/-- `MemWrite(a, 1, v)` (20_memory.md R64). No instruction of the opcode set stores one byte (R70). -/
def memWrite8 (a : Nat) (v : Byte) (s : State) : Except Raised State :=
  if Config.memSize ≤ a then .error (.outOfBounds a .byte) else .ok (s.setMem (s.mem.write a v))

/-- `MemWrite(a, 2, v)` (20_memory.md R66): both bytes or neither. -/
def memWrite16 (a : Nat) (v : Word) (s : State) : Except Raised State :=
  if Config.memSize ≤ a + 1 then .error (.outOfBounds a .word)
  else .ok (s.setMem ((s.mem.write a (lowByte v)).write (a + 1) (highByte v)))

end Sys2Proof.Machine
end

