-- ==== Sys2Proof/Machine/Operands.lean ====
section
/-! DEFINITION. The operand forms of 30_encoding.md R97: how operand bytes are read, and the addresses instructions form. -/

namespace Sys2Proof.Machine

/-- `sext_16(b)` (00_scope.md R9): the two's-complement value of a byte, -128 to 127. -/
def sext16 (b : Byte) : Int :=
  if b.toNat < 0x80 then (b.toNat : Int) else (b.toNat : Int) - 0x100

/-- Read the operand bytes at IP: one byte with `MemRead(IP, 1)` or one word with `MemRead(IP, 2)` (30_encoding.md R94 to R96,
20_memory.md R70). The word's high byte is at IP + 1 without wrap (log entry 8). -/
def fetchOperand (size : OperandSize) (s : State) : Except Raised Word :=
  match size with
  | .none => .ok 0#16
  | .byte => (memRead8 s.ip.toNat s).map (fun b => wordOfBytes b 0#8)
  | .word => memRead16 s.ip.toNat s

/-- The address of the word at the top of the stack: SP, a flat 16-bit address (20_memory.md R61). -/
def stackAddress (s : State) : Nat :=
  s.sp.toNat

/-- The address a direct address operand names (20_memory.md R61). -/
def directAddress (addr : Word) : Nat :=
  addr.toNat

/-- `SP <- (SP - 2) mod 2^16` (42_stack.md R150). -/
def State.lowerSp (s : State) : State :=
  { s with sp := s.sp - 2#16 }

/-- `SP <- (SP + 2) mod 2^16` (42_stack.md R151). -/
def State.raiseSp (s : State) : State :=
  { s with sp := s.sp + 2#16 }

end Sys2Proof.Machine
end

