-- ==== Sys2Proof/Machine/Alu.lean ====
section
/-! DEFINITION. The ALU dispatcher: XOR alone (41_alu.md). A meaning starts after the opcode fetch, with IP past the opcode byte,
and holds its operand already read (log entry 17). -/

namespace Sys2Proof.Machine

/-- XOR r16, r16 (41_alu.md R140). The source is read first, by its index, and raises `InvalidOperand` when the index is above 7,
before any register write and before IP advances. FLAGS is not written. -/
def execXor (dst : GenReg) (src : Fin 32) (s : State) : Result :=
  attempt (get16 src.val s) s fun vs =>
    .next ((s.setReg16 dst.toReg16 (s.reg16 dst.toReg16 ^^^ vs)).advanceIp 1)

end Sys2Proof.Machine
end

