-- ==== Sys2Proof/Machine/Control.lean ====
section
/-! DEFINITION. Control transfer (44_control.md). -/

namespace Sys2Proof.Machine

/-- JMP rel8 (44_control.md R170): `IP <- (IP + sext_16(rel) + 1) mod 2^16`, with IP at the displacement byte. -/
def execJmpRel8 (rel : Byte) (s : State) : Result :=
  .next (s.advanceIp (sext16 rel + 1))

/-- HLT (44_control.md R171): `halt(Hlt(faultAddr))`. IP keeps the value the fetch gave it. -/
def execHlt (s : State) : Result :=
  haltWith (.hlt s.faultAddr) s

end Sys2Proof.Machine
end

