-- ==== Sys2Proof/Machine/Flags.lean ====
section
/-! DEFINITION. The flags register: nine named bits of one word, and its three operations (10_state.md R35, R36). No other
flag computation exists: XOR writes no flag (R38). -/

namespace Sys2Proof.Machine

/-- The nine named flags (10_state.md R35: CF, PF, AF, ZF, SF, TF, IF, DF, OF). -/
inductive Flag where
  | carry | parity | auxCarry | zero | sign | trap | interruptEnable | direction | overflow
  deriving DecidableEq, Repr

/-- The bit of FLAGS a flag is (10_state.md R35; the positions are the spec's own, log entry 6). -/
def Flag.pos : Flag → Nat
  | .carry => 0
  | .parity => 2
  | .auxCarry => 4
  | .zero => 6
  | .sign => 7
  | .trap => 8
  | .interruptEnable => 9
  | .direction => 10
  | .overflow => 11

/-- `1 << pos(f)`. -/
def Flag.mask (f : Flag) : Word :=
  1#16 <<< f.pos

/-- `test(f)`. -/
def State.testFlag (s : State) (f : Flag) : Bool :=
  s.flags.getLsbD f.pos

/-- `set(f)`: `FLAGS <- FLAGS OR (1 << pos(f))`. -/
def State.setFlag (s : State) (f : Flag) : State :=
  { s with flags := s.flags ||| f.mask }

/-- `clear(f)`: `FLAGS <- FLAGS AND NOT (1 << pos(f))`. -/
def State.clearFlag (s : State) (f : Flag) : State :=
  { s with flags := s.flags &&& ~~~f.mask }

end Sys2Proof.Machine
end

