-- ==== Sys2Proof/Machine/FlagInstr.lean ====
section
/-! DEFINITION. Flag instructions (45_flags.md). Each writes one bit of FLAGS and nothing else. -/

namespace Sys2Proof.Machine

/-- CLC (45_flags.md R180): CF <- 0. -/
def execClc (s : State) : Result :=
  .next (s.clearFlag .carry)

/-- CLI (45_flags.md R181): IF <- 0. -/
def execCli (s : State) : Result :=
  .next (s.clearFlag .interruptEnable)

/-- STI (45_flags.md R182): IF <- 1. -/
def execSti (s : State) : Result :=
  .next (s.setFlag .interruptEnable)

/-- CLD (45_flags.md R183): DF <- 0. -/
def execCld (s : State) : Result :=
  .next (s.clearFlag .direction)

/-- STD (45_flags.md R184): DF <- 1. -/
def execStd (s : State) : Result :=
  .next (s.setFlag .direction)

end Sys2Proof.Machine
end

