-- ==== Sys2Proof/Machine/Mov.lean ====
section
/-! DEFINITION. Move instructions (43_mov.md). -/

namespace Sys2Proof.Machine

/-- Load the byte at a direct address into AL; AH is unchanged (43_mov.md R160). -/
def loadAl (addr : Word) (s : State) : Result :=
  attempt (memRead8 (directAddress addr) s) s fun v =>
    .next ((s.setReg8 .al v).advanceIp 2)

/-- Load the word at a direct address into AX: the other reading of opcode 0xA1 (43_mov.md R161). -/
def loadAx (addr : Word) (s : State) : Result :=
  attempt (memRead16 (directAddress addr) s) s fun v =>
    .next ((s.setReg16 .ax v).advanceIp 2)

/-- Opcode 0xA1 under either value of `MOV_A1_LOADS_WORD` (43_mov.md R161). -/
def loadA1 (loadsWord : Bool) (addr : Word) (s : State) : Result :=
  if loadsWord then loadAx addr s else loadAl addr s

/-- MOV AL, [imm16] (43_mov.md R160). -/
def execMovAlMoffs (addr : Word) (s : State) : Result :=
  loadAl addr s

/-- MOV AX, [imm16] as observed (43_mov.md R161). -/
def execMovAxMoffsObserved (addr : Word) (s : State) : Result :=
  loadA1 Config.movA1LoadsWord addr s

/-- MOV r8, imm8 (43_mov.md R162). -/
def execMovR8Imm8 (r : Reg8) (imm : Byte) (s : State) : Result :=
  .next ((s.setReg8 r imm).advanceIp 1)

/-- MOV r16, imm16 (43_mov.md R163). -/
def execMovR16Imm16 (r : Reg16) (imm : Word) (s : State) : Result :=
  .next ((s.setReg16 r imm).advanceIp 2)

end Sys2Proof.Machine
end

