-- ==== Sys2Proof/Machine/Stack.lean ====
section
/-! DEFINITION. Stack instructions (42_stack.md). -/

namespace Sys2Proof.Machine

/-- PUSH r16 (42_stack.md R150): SP is lowered, then the register is read (so PUSH SP stores the new SP, log entry 12), then its
word is stored at SP. -/
def execPush (r : Reg16) (s : State) : Result :=
  let s1 := s.lowerSp
  attempt (memWrite16 (stackAddress s1) (s1.reg16 r) s1) s1 fun s2 => .next s2

/-- POP r16 (42_stack.md R151): the word at SP goes into the register, then SP is raised (so POP SP leaves the word plus 2, log
entry 12). -/
def execPop (r : Reg16) (s : State) : Result :=
  attempt (memRead16 (stackAddress s) s) s fun v =>
    .next (s.setReg16 r v).raiseSp

end Sys2Proof.Machine
end

