-- ==== Sys2Proof/Machine/Dispatch.lean ====
section
/-! DEFINITION. The handler of each instruction (40_sequencer.md R123), one arm per constructor. -/

namespace Sys2Proof.Machine

/-- What a handler does after the opcode fetch. -/
def exec (i : Instr) (s : State) : Host.Outcome State Fault Refusal :=
  match i with
  | .xor dst src => Sys2Proof.Machine.execXor dst src s
  | .push r => Sys2Proof.Machine.execPush r s
  | .pop r => Sys2Proof.Machine.execPop r s
  | .movAlMoffs addr => Sys2Proof.Machine.execMovAlMoffs addr s
  | .movAxMoffsObserved addr => Sys2Proof.Machine.execMovAxMoffsObserved addr s
  | .movR8Imm8 r imm => Sys2Proof.Machine.execMovR8Imm8 r imm s
  | .movR16Imm16 r imm => Sys2Proof.Machine.execMovR16Imm16 r imm s
  | .jmpRel8 rel => Sys2Proof.Machine.execJmpRel8 rel s
  | .hlt => Sys2Proof.Machine.execHlt s
  | .clc => Sys2Proof.Machine.execClc s
  | .cli => Sys2Proof.Machine.execCli s
  | .sti => Sys2Proof.Machine.execSti s
  | .cld => Sys2Proof.Machine.execCld s
  | .std => Sys2Proof.Machine.execStd s

end Sys2Proof.Machine
end

