-- ==== Sys2Proof/Machine/Sequencer.lean ====
section
/-! DEFINITION. The cycle (40_sequencer.md), and where an instruction's bytes lie. -/

namespace Sys2Proof.Machine

/-- One cycle (40_sequencer.md R121 to R125): record IP, fetch the opcode byte and advance IP, dispatch, read the operand at IP,
run the handler. An error at a fetch ends the cycle in the state reached so far (60_exceptions.md R204, R205). -/
def cycle (s : State) : Result :=
  let s0 := s.recordFaultAddr
  attempt (memRead8 s0.ip.toNat s0) s0 fun op =>
    match handlerOf op with
    | none => haltInvalidOpcode op s.beginCycle
    | some h =>
      attempt (fetchOperand h.operandSize s.beginCycle) s.beginCycle fun operand =>
        exec (h.instr op operand) s.beginCycle

/-- `step()` as far as it changes state: a cycle while `run` is `Running`, and nothing otherwise (40_sequencer.md R120, R126). -/
def stepGuarded (s : State) : Result :=
  match s.run with
  | .running => cycle s
  | .halted => .next s
  | .faulted => .next s

/-- The indices of the three bytes at IP, as a cycle reads them: the opcode at IP, the operand's first byte at IP + 1 modulo 2^16,
and its second byte one index higher without wrap (40_sequencer.md R122; 30_encoding.md R95). -/
def fetchIndices (s : State) : List Nat :=
  let operandAt := s.beginCycle.ip.toNat
  [s.ip.toNat, operandAt, operandAt + 1]

/-- The bytes at those indices: what there is to decode at IP. -/
def fetchWindow (s : State) : List Byte :=
  (fetchIndices s).map s.byteAt

/-- Put bytes at the indices of a list, first to first. -/
def placeBytes : List Nat → List Byte → Memory → Memory
  | a :: as, v :: vs, m => placeBytes as vs (m.write a v)
  | _, _, m => m

/-- `s` with the bytes of one instruction where the next cycle reads them, and `run` at `Running`, without which no cycle runs
(log entry 5: this stands for the load that brings a program in). -/
def State.withInstruction (s : State) (bytes : List Byte) : State :=
  { s with run := .running, mem := placeBytes (fetchIndices s) bytes s.mem }

end Sys2Proof.Machine
end

