-- ==== Sys2Proof/Machine/Step.lean ====
section
/-! DEFINITION. One step of the machine: one call of `step()` (00_scope.md R15; 40_sequencer.md R126). -/

namespace Sys2Proof.Machine

/-- One step (40_sequencer.md R125). -/
def step (s : State) : Host.Outcome State Fault Refusal :=
  stepGuarded s

/-- `s` with the instruction whose bits are `w` stored where `step` fetches its next instruction (log entry 5). -/
def State.withFetchWord (s : State) (nbits w : Nat) : State :=
  s.withInstruction (tableBytes nbits w)

end Sys2Proof.Machine
end

