-- ==== Sys2Proof/Machine/Boot.lean ====
section
/-! DEFINITION. The boot port (00_scope.md R14): what the boot loader leaves before the first cycle (70_reset_and_hazards.md R230,
R231). -/

namespace Sys2Proof.Machine

/-- The initial state as a function of the three launch inputs (70_reset_and_hazards.md R230): the boot image, whose first 512
bytes go to 0x7C00, `INIT_MEM` and `INIT_FAULT_ADDR`. An image of fewer than 512 bytes is refused, and the machine does not start
(93_implementation_defined.md I14; log entry 20). The core checks no signature (R232). -/
def boot (image : List Byte) (initMem : Memory) (initFaultAddr : Word) : Option State :=
  if image.length < Config.imageSize then none
  else
    some { State.reset with
      faultAddr := initFaultAddr
      mem := Memory.writeBytes Config.loadAddr.toNat (image.take Config.imageSize) initMem }

end Sys2Proof.Machine
end

