-- ==== Sys2Proof/Machine/HostPort.lean ====
section
/-! DEFINITION. The host port (70_reset_and_hazards.md R235 to R237, R240): what `step()` returns, `isHalted()`, the read-only
accessors and the run loop. None of it changes state. The register, byte view, segment, FLAGS, `faultAddr` and `stop` accessors are
`State.reg16`, `State.reg8`, `State.segReg`, `State.testFlag` and the fields of State. -/

namespace Sys2Proof.Machine

/-- What `step()` returns to its caller (40_sequencer.md R126). -/
inductive StepReport where
  /-- true: the machine is still running. -/
  | stillRunning
  /-- false: it is not. -/
  | notRunning
  /-- The error the cycle raised, as recorded in `stop`. -/
  | error (stop : StopRecord)
  deriving DecidableEq, Repr

/-- The report of a step from a state in the run state `before` to the state `t`: an error is reported once, by the cycle that
raised it; every later call returns false (40_sequencer.md R120, R126). -/
def reportOf (before : RunState) (t : State) : StepReport :=
  match before, t.run with
  | .running, .running => .stillRunning
  | .running, .halted => .notRunning
  | .running, .faulted => .error t.stop
  | .halted, _ => .notRunning
  | .faulted, _ => .notRunning

/-- What `step()` returns from a state; none only if the model's step gave no next state. -/
def stepReport (s : State) : Option StepReport :=
  match step s with
  | .next t => some (reportOf s.run t)
  | .fault _ => none
  | .refused _ => none

/-- `isHalted()`: true exactly when `run = Halted` (70_reset_and_hazards.md R235). -/
def isHalted (s : State) : Bool :=
  decide (s.run = .halted)

/-- The numeric code of a stop record (60_exceptions.md R200). -/
def StopRecord.code : StopRecord → Nat
  | .none => 0
  | .hlt _ => 1
  | .invalidOpcode _ _ => 2
  | .outOfBounds _ _ => 3
  | .invalidOperand _ => 4

/-- Why a host accessor refuses. -/
inductive HostError where
  /-- The range is not `0 <= lo <= hi <= MEM_SIZE` (70_reset_and_hazards.md R235). -/
  | rangeOutsideMemory (lo hi : Nat)
  deriving DecidableEq, Repr

/-- The bytes of the range `[lo, hi)`, or an error and no read (70_reset_and_hazards.md R235). -/
def hostReadRange (lo hi : Nat) (s : State) : Except HostError (List Byte) :=
  if lo ≤ hi ∧ hi ≤ Config.memSize then .ok (s.mem.readBytes lo (hi - lo))
  else .error (.rangeOutsideMemory lo hi)

/-- How a fuelled run ended (70_reset_and_hazards.md R237, R240). -/
inductive RunEnd where
  /-- It halted, at an HLT or an invalid opcode: the final state. -/
  | halted (final : State)
  /-- It stopped on an error: the final state. -/
  | faulted (final : State)
  /-- The fuel ran out with the machine still running: no end of the run. -/
  | outOfFuel (reached : State)
  /-- The model's step gave no next state. -/
  | noNextState (last : State)
  deriving DecidableEq, Repr

/-- The run loop "while state == Running: cycle()" (40_sequencer.md R128), for at most `fuel` cycles. -/
def runLoop : Nat → State → RunEnd
  | fuel, s =>
    match s.run with
    | .halted => .halted s
    | .faulted => .faulted s
    | .running =>
      match fuel with
      | 0 => .outOfFuel s
      | n + 1 =>
        match step s with
        | .next t => runLoop n t
        | .fault _ => .noNextState s
        | .refused _ => .noNextState s

end Sys2Proof.Machine
end

