-- ==== Sys2Proof/Safety.lean ====
section
/-! DEFINITION. The terms claims use: which states a run from boot can be in, and what it means for parts of the state to be the
same before and after. -/

namespace Sys2Proof.Machine

/-- The run state and the stop record agree (10_state.md R40, R42; 60_exceptions.md R200). -/
def stopAgrees : RunState → StopRecord → Bool
  | .running, .none => true
  | .halted, .hlt _ => true
  | .halted, .invalidOpcode _ _ => true
  | .faulted, .outOfBounds _ _ => true
  | .faulted, .invalidOperand _ => true
  | _, _ => false

/-- The bits of FLAGS that no run from reset sets: all but IF and DF (10_state.md R37, R38; CF is only ever cleared). -/
def neverSetFlags : Word :=
  0xF9FF#16

/-- The invariant of a run from boot: memory is in canonical form, `run` and `stop` agree, no bit of FLAGS but IF and DF is set
(10_state.md R37), and the segment placeholders hold 0 (10_state.md R34). -/
def State.inv (s : State) : Bool :=
  s.mem.wf && stopAgrees s.run s.stop && (s.flags &&& neverSetFlags == 0#16)
    && s.es == 0#16 && s.cs == 0#16 && s.ss == 0#16 && s.ds == 0#16

/-- No error has stopped the machine (60_exceptions.md R204). -/
def State.noError (s : State) : Bool :=
  s.run != .faulted

/-- Every 16-bit register but those in `changed` is the same. -/
def SameRegsBut (changed : List Reg16) (s t : State) : Prop :=
  ∀ r, r ∉ changed → t.reg16 r = s.reg16 r

/-- Every bit of FLAGS is the same. -/
def SameFlags (s t : State) : Prop :=
  t.flags = s.flags

/-- The segment placeholders are the same. -/
def SameSegments (s t : State) : Prop :=
  ∀ r, t.segReg r = s.segReg r

/-- `run`, `faultAddr` and `stop` are the same. -/
def SameSequencer (s t : State) : Prop :=
  t.run = s.run ∧ t.faultAddr = s.faultAddr ∧ t.stop = s.stop

/-- Every byte of memory reads the same, but those at the indices in `stored`. -/
def SameMemoryBut (stored : List Nat) (s t : State) : Prop :=
  ∀ a, a ∉ stored → t.byteAt a = s.byteAt a

/-- The opcode values of the named rows of 40_sequencer.md R123, as numbers. -/
abbrev NamedOpcode (n : Nat) : Prop :=
  n = 0x31 ∨ (0x50 ≤ n ∧ n ≤ 0x5F) ∨ n = 0xA0 ∨ n = 0xA1 ∨ (0xB0 ≤ n ∧ n ≤ 0xBF) ∨ n = 0xEB ∨ n = 0xF4 ∨ n = 0xF8 ∨
    (0xFA ≤ n ∧ n ≤ 0xFD)

/-- How many bytes past its opcode's address an instruction that does not jump leaves IP (40_sequencer.md R129). For JMP it is
the 2 that the displacement is added to. -/
def cycleLength : Instr → Nat
  | .xor _ _ => 2
  | .push _ => 1
  | .pop _ => 1
  | .movAlMoffs _ => 3
  | .movAxMoffsObserved _ => 3
  | .movR8Imm8 _ _ => 2
  | .movR16Imm16 _ _ => 3
  | .jmpRel8 _ => 2
  | .hlt => 1
  | .clc => 1
  | .cli => 1
  | .sti => 1
  | .cld => 1
  | .std => 1

/-- The opcode byte of the next cycle: `MemRead(IP, 1)` (40_sequencer.md R122). -/
def State.opcode (s : State) : Nat :=
  (s.byteAt s.ip.toNat).toNat

/-- The first byte after that opcode, where a cycle reads it (40_sequencer.md R122). -/
def State.operandByte (s : State) : Byte :=
  s.byteAt (s.ip + 1#16).toNat

/-- `m` cycles lead from `s` to `t`, and the machine is running before each of them: `t` is where a run from `s` is after `m` cycles
(40_sequencer.md R128, 70_reset_and_hazards.md R237). -/
def RunReaches (m : Nat) (s t : State) : Prop :=
  Host.Core.run Sys2Proof.core m s = .next t ∧
  ∀ j < m, ∃ u, Host.Core.run Sys2Proof.core j s = .next u ∧ u.run = .running

end Sys2Proof.Machine
end

