-- ==== Sys2Proof/Certificates/Slice0/Obligations.lean ====
section
/-! DEFINITION. The statements about the machine, for the provers. Each docstring says which sentence of spec/ it states. -/

open Sys2Proof Sys2Proof.Machine

/-! ### Encoding -/

/-- 30_encoding.md R91 to R103: words written out bit by bit decode to the instructions they stand for. -/
def Obligations.WrittenOutWordsDecode : Prop :=
  decode [0b00110001#8, 0b11011000#8] = .ok (.xor .ax 3, []) ∧
  decode [0b00110001#8, 0b11110110#8] = .ok (.xor .dx 6, []) ∧
  decode [0b01010111#8] = .ok (.push .di, []) ∧
  decode [0b01011100#8] = .ok (.pop .sp, []) ∧
  decode [0b10100000#8, 0b00000000#8, 0b01111110#8] = .ok (.movAlMoffs 0x7E00#16, []) ∧
  decode [0b10100001#8, 0b11111111#8, 0b11111111#8] = .ok (.movAxMoffsObserved 0xFFFF#16, []) ∧
  decode [0b10110100#8, 0b00010010#8] = .ok (.movR8Imm8 .ah 0x12#8, []) ∧
  decode [0b10111110#8, 0b00100010#8, 0b00010001#8] = .ok (.movR16Imm16 .si 0x1122#16, []) ∧
  decode [0b11101011#8, 0b11111110#8] = .ok (.jmpRel8 0xFE#8, []) ∧
  decode [0b11110100#8] = .ok (.hlt, []) ∧
  decode [0b11111011#8] = .ok (.sti, [])

/-- 30_encoding.md R99, R100: of all bytes, the decoder rejects as invalid opcodes exactly those outside the named rows, whatever
follows them. -/
def Obligations.DecoderRejectsExactlyTheUnnamedOpcodes : Prop :=
  ∀ (op : Byte) (rest : List Byte), decode (op :: rest) = .error (.invalidOpcode op) ↔ ¬ NamedOpcode op.toNat

/-- 30_encoding.md R91 to R96, R98: every form, with every value of its fields. The pair byte of XOR below 0xC0 follows decision D8
(log entry 9); a word operand's byte order follows D7 (log entry 8). -/
def Obligations.DecoderReadsEveryFieldOfEveryForm : Prop :=
  ∀ rest : List Byte,
    (∀ p : Byte, ∃ dst src, decode (0x31#8 :: p :: rest) = .ok (.xor dst src, rest) ∧ dst.toReg16.code = p.toNat % 4 ∧
      src.val = if 0xC0 ≤ p.toNat then p.toNat / 8 % 8 else (p.toNat + 0x40) / 8) ∧
    (∀ k < 8, ∃ r, r.code = k ∧ decode (BitVec.ofNat 8 (0x50 + k) :: rest) = .ok (.push r, rest)) ∧
    (∀ k < 8, ∃ r, r.code = k ∧ decode (BitVec.ofNat 8 (0x58 + k) :: rest) = .ok (.pop r, rest)) ∧
    (∀ lo hi : Byte, ∃ a : Word, a.toNat = lo.toNat + 0x100 * hi.toNat ∧
      decode (0xA0#8 :: lo :: hi :: rest) = .ok (.movAlMoffs a, rest) ∧
      decode (0xA1#8 :: lo :: hi :: rest) = .ok (.movAxMoffsObserved a, rest)) ∧
    (∀ k < 8, ∀ imm : Byte, ∃ r, r.code = k ∧
      decode (BitVec.ofNat 8 (0xB0 + k) :: imm :: rest) = .ok (.movR8Imm8 r imm, rest)) ∧
    (∀ k < 8, ∀ lo hi : Byte, ∃ (r : Reg16) (a : Word), r.code = k ∧ a.toNat = lo.toNat + 0x100 * hi.toNat ∧
      decode (BitVec.ofNat 8 (0xB8 + k) :: lo :: hi :: rest) = .ok (.movR16Imm16 r a, rest)) ∧
    (∀ d : Byte, decode (0xEB#8 :: d :: rest) = .ok (.jmpRel8 d, rest)) ∧
    decode (0xF4#8 :: rest) = .ok (.hlt, rest) ∧
    decode (0xF8#8 :: rest) = .ok (.clc, rest) ∧
    decode (0xFA#8 :: rest) = .ok (.cli, rest) ∧
    decode (0xFB#8 :: rest) = .ok (.sti, rest) ∧
    decode (0xFC#8 :: rest) = .ok (.cld, rest) ∧
    decode (0xFD#8 :: rest) = .ok (.std, rest)

/-- 30_encoding.md R103: decoding what the encoder writes gives the instruction back, whatever bytes follow. R103 gives the bytes of every
form with legal operands; for an XOR with a source index of 8 to 31 the encoder is the model's own extension, the pair byte below 0xC0
that R93 and decision D8 read that index from (log entry 9). -/
def Obligations.DecodeOfEncodeIsTheInstruction : Prop :=
  ∀ (i : Instr) (rest : List Byte), decode (encode i ++ rest) = .ok (i, rest)

/-- 30_encoding.md R93, R102: the bytes decoded are the encoder's, but for bit 2 of XOR's pair byte, which is ignored and which the
encoder writes as 0 (R103 and decision D27, log entry 22). For a pair byte below 0xC0, which R103 encodes nothing to, the encoder's byte
is the model's own extension, the inverse of R93's subtraction under decision D8 (log entry 9). -/
def Obligations.EncodeOfDecodeIsTheBytes : Prop :=
  ∀ (bytes rest : List Byte) (i : Instr), decode bytes = .ok (i, rest) →
    bytes = encode i ++ rest ∨
      ∃ p : Byte, bytes = 0x31#8 :: p :: rest ∧ encode i = [0x31#8, p &&& 0xFB#8] ∧ p.getLsbD 2 = true

/-! ### The cycle -/

/-- 40_sequencer.md R121 to R125: when the bytes where a cycle reads them decode to an instruction, the step is its handler, run in
the state steps 1 and 2 of the cycle leave: `faultAddr` holds IP, and IP is one further, modulo 2^16 (log entry 7). -/
def Obligations.StepRunsTheDecodedInstruction : Prop :=
  ∀ (s : State) (i : Instr) (rest : List Byte), s.run = .running → decode (fetchWindow s) = .ok (i, rest) →
    step s = exec i s.beginCycle ∧
    s.beginCycle = { s with faultAddr := s.ip, ip := s.ip + 1#16 } ∧
    fetchWindow s =
      [s.byteAt s.ip.toNat, s.byteAt (s.ip + 1#16).toNat, s.byteAt ((s.ip + 1#16).toNat + 1)]

/-- 40_sequencer.md R124, 60_exceptions.md R201: an opcode outside the named rows halts the machine, records the byte and its address,
leaves IP one further (decision D20, log entry 16) and changes nothing else; `step()` returns false. -/
def Obligations.InvalidOpcodeHaltsAndRecordsItself : Prop :=
  ∀ s : State, s.run = .running → ¬ NamedOpcode s.opcode →
    step s = .next { s with
      faultAddr := s.ip, ip := s.ip + 1#16, run := .halted
      stop := .invalidOpcode (s.byteAt s.ip.toNat) s.ip } ∧
    stepReport s = some .notRunning

/-- 40_sequencer.md R120: a stopped machine's step changes nothing and returns false (decision D14, log entry 4). -/
def Obligations.StoppedMachineNeverMoves : Prop :=
  ∀ s : State, s.run ≠ .running → step s = .next s ∧ stepReport s = some .notRunning

/-- 40_sequencer.md R126: every step answers a next state and has exactly one of four outcomes (decisions D13 and D14, log entries 4
and 13). The four cases exclude each other by `run` before and after. -/
def Obligations.StepHasOneOfFourOutcomes : Prop :=
  ∀ s : State, ∃ t, step s = .next t ∧
    ((s.run ≠ .running ∧ t = s ∧ stepReport s = some .notRunning) ∨
     (s.run = .running ∧ t.run = .running ∧ t.stop = s.stop ∧ stepReport s = some .stillRunning) ∨
     (s.run = .running ∧ t.run = .halted ∧ stepReport s = some .notRunning ∧
       (t.stop = .hlt s.ip ∨ t.stop = .invalidOpcode (s.byteAt s.ip.toNat) s.ip)) ∨
     (s.run = .running ∧ t.run = .faulted ∧ stepReport s = some (.error t.stop) ∧
       ∃ code, t.stop = .invalidOperand code ∧ 8 ≤ code ∧ code < 32))

/-- 60_exceptions.md R200, 40_sequencer.md R128: a running machine goes on running unless it meets an HLT, an invalid opcode, or an XOR
whose pair byte is below 0xC0 (decision D8, log entry 9). -/
def Obligations.MachineStopsExactlyAtTheListedEvents : Prop :=
  ∀ s : State, s.run = .running →
    ∃ t, step s = .next t ∧
      (t.run = .halted ↔ s.opcode = 0xF4 ∨ ¬ NamedOpcode s.opcode) ∧
      (t.run = .faulted ↔ s.opcode = 0x31 ∧ s.operandByte.toNat < 0xC0)

/-- 40_sequencer.md R121, as stated: every cycle writes `faultAddr` with the value IP has at its start. -/
def Obligations.EveryCycleRecordsItsAddress : Prop :=
  ∀ s : State, s.run = .running → ∃ t, step s = .next t ∧ t.faultAddr = s.ip

/-- 40_sequencer.md R129: where IP is after a completed cycle, modulo 2^16 (decision D4, log entry 7; after HLT and after an invalid
opcode, D20, log entry 16). The two clauses are the table's rows: the decoded instructions that raise no error, and the invalid opcodes. -/
def Obligations.IpAfterEveryCompletedCycle : Prop :=
  (∀ (s : State) (i : Instr) (rest : List Byte), s.run = .running → decode (fetchWindow s) = .ok (i, rest) →
    i.wellFormed = true →
    ∃ t, step s = .next t ∧
      (t.ip.toNat : Int) =
        ((s.ip.toNat : Int) + cycleLength i + (match i with | .jmpRel8 d => d.toInt | _ => 0)) % 0x10000) ∧
  (∀ s : State, s.run = .running → ¬ NamedOpcode s.opcode →
    ∃ t, step s = .next t ∧ t.ip.toNat = (s.ip.toNat + 1) % 0x10000)

/-! ### The register file and the flags register -/

/-- 10_state.md R24, as stated: a byte write changes its half of its cell and nothing else. -/
def Obligations.ByteWriteKeepsTheOtherHalf : Prop :=
  ∀ (s : State) (r : Reg8) (v : Byte),
    (s.setReg8 r v).reg16 r.cell =
      (if r.isHigh then (s.reg16 r.cell &&& 0x00FF#16) ||| (v.setWidth 16 <<< 8)
       else (s.reg16 r.cell &&& 0xFF00#16) ||| v.setWidth 16) ∧
    (∀ q : Reg8, (s.setReg8 r v).reg8 q = if q = r then v else s.reg8 q) ∧
    SameRegsBut [r.cell] s (s.setReg8 r v) ∧ (s.setReg8 r v).ip = s.ip ∧
    SameFlags s (s.setReg8 r v) ∧ SameSegments s (s.setReg8 r v) ∧ SameSequencer s (s.setReg8 r v) ∧
    SameMemoryBut [] s (s.setReg8 r v)

/-- 10_state.md R25, as stated: a word write overwrites both byte views of its cell, and the word read is `(high << 8) OR low`. -/
def Obligations.WordWriteOverwritesBothHalves : Prop :=
  ∀ (s : State) (r : Reg16) (v : Word),
    (s.setReg16 r v).reg16 r = v ∧
    (∀ q : Reg8, q.cell = r →
      (s.setReg16 r v).reg8 q = if q.isHigh then v.extractLsb' 8 8 else v.extractLsb' 0 8) ∧
    (∀ lo hi : Reg8, lo.cell = r → hi.cell = r → lo.isHigh = false → hi.isHigh = true →
      s.reg16 r = ((s.reg8 hi).setWidth 16 <<< 8) ||| (s.reg8 lo).setWidth 16)

/-- 10_state.md R26 (the 16-bit index table), R27 (the 8-bit index table, derived by the spec; that AH, CH, DH and BH are the high bytes
of AX, CX, DX and BX is general knowledge the spec supplies in R23, log entry 6) and R28 (the four accesses; a code outside 0 to 7
raises, and reads and writes nothing). -/
def Obligations.RegisterFileReadsByCanonicalIndex : Prop :=
  ∀ s : State,
    get16 0 s = .ok s.ax ∧ get16 1 s = .ok s.cx ∧ get16 2 s = .ok s.dx ∧ get16 3 s = .ok s.bx ∧
    get16 4 s = .ok s.sp ∧ get16 5 s = .ok s.bp ∧ get16 6 s = .ok s.si ∧ get16 7 s = .ok s.di ∧
    (∀ (r : Reg16) (v : Word), set16 r.code v s = .ok (s.setReg16 r v) ∧ get16 r.code (s.setReg16 r v) = .ok v) ∧
    get8 0 s = .ok (s.ax.extractLsb' 0 8) ∧ get8 1 s = .ok (s.cx.extractLsb' 0 8) ∧
    get8 2 s = .ok (s.dx.extractLsb' 0 8) ∧ get8 3 s = .ok (s.bx.extractLsb' 0 8) ∧
    get8 4 s = .ok (s.ax.extractLsb' 8 8) ∧ get8 5 s = .ok (s.cx.extractLsb' 8 8) ∧
    get8 6 s = .ok (s.dx.extractLsb' 8 8) ∧ get8 7 s = .ok (s.bx.extractLsb' 8 8) ∧
    (∀ (r : Reg8) (b : Byte), set8 r.code b s = .ok (s.setReg8 r b) ∧ get8 r.code (s.setReg8 r b) = .ok b) ∧
    ∀ code, 8 ≤ code → ∀ (v : Word) (b : Byte),
      get16 code s = .error (.invalidOperand code) ∧ set16 code v s = .error (.invalidOperand code) ∧
      get8 code s = .error (.invalidOperand code) ∧ set8 code b s = .error (.invalidOperand code)

/-- 10_state.md R36, as stated: setting or clearing a named flag writes its bit and no other, defined or reserved; where the bit
already has the value, FLAGS is unchanged. -/
def Obligations.FlagAccessTouchesOneBit : Prop :=
  ∀ (s : State) (f : Flag),
    (s.setFlag f).flags = s.flags ||| (1#16 <<< f.pos) ∧
    (s.clearFlag f).flags = s.flags &&& ~~~(1#16 <<< f.pos) ∧
    (s.setFlag f).testFlag f = true ∧ (s.clearFlag f).testFlag f = false ∧
    (∀ k, k ≠ f.pos → (s.setFlag f).flags.getLsbD k = s.flags.getLsbD k ∧
      (s.clearFlag f).flags.getLsbD k = s.flags.getLsbD k) ∧
    (∀ g, g ≠ f → (s.setFlag f).testFlag g = s.testFlag g ∧ (s.clearFlag f).testFlag g = s.testFlag g) ∧
    (s.testFlag f = true → s.setFlag f = s) ∧ (s.testFlag f = false → s.clearFlag f = s)

/-- 10_state.md R35 (the table of positions) and R37: where each named flag stands in FLAGS, for its three accesses, and that none of
them writes a reserved bit. The positions are decision D15, general knowledge the spec supplies (log entry 6). -/
def Obligations.NamedFlagsStandAtTheirPositions : Prop :=
  ∀ s : State,
    (∀ f : Flag, ∃ k, s.testFlag f = s.flags.getLsbD k ∧
      (s.setFlag f).flags = s.flags ||| BitVec.twoPow 16 k ∧ (s.clearFlag f).flags = s.flags &&& ~~~BitVec.twoPow 16 k ∧
      k = match f with
        | .carry => 0 | .parity => 2 | .auxCarry => 4 | .zero => 6 | .sign => 7 | .trap => 8
        | .interruptEnable => 9 | .direction => 10 | .overflow => 11) ∧
    ∀ (f : Flag) (k : Nat), k = 1 ∨ k = 3 ∨ k = 5 ∨ 12 ≤ k →
      (s.setFlag f).flags.getLsbD k = s.flags.getLsbD k ∧ (s.clearFlag f).flags.getLsbD k = s.flags.getLsbD k

/-! ### Flag instructions -/

/-- 45_flags.md, R180 to R184: each flag instruction completes in every state and writes one bit of FLAGS and nothing else; its whole
cycle also records its address and leaves IP one further, modulo 2^16 (log entry 7). The bit positions are decision D15 (log
entry 6). -/
def Obligations.FlagInstructionsWriteOneBit : Prop :=
  (∀ s : State,
    exec .clc s = .next { s with flags := s.flags &&& ~~~0x0001#16 } ∧
    exec .cli s = .next { s with flags := s.flags &&& ~~~0x0200#16 } ∧
    exec .sti s = .next { s with flags := s.flags ||| 0x0200#16 } ∧
    exec .cld s = .next { s with flags := s.flags &&& ~~~0x0400#16 } ∧
    exec .std s = .next { s with flags := s.flags ||| 0x0400#16 }) ∧
  (∀ s : State, s.run = .running →
    (s.opcode = 0xF8 →
      step s = .next { s with faultAddr := s.ip, ip := s.ip + 1#16, flags := s.flags &&& ~~~0x0001#16 }) ∧
    (s.opcode = 0xFA →
      step s = .next { s with faultAddr := s.ip, ip := s.ip + 1#16, flags := s.flags &&& ~~~0x0200#16 }) ∧
    (s.opcode = 0xFB →
      step s = .next { s with faultAddr := s.ip, ip := s.ip + 1#16, flags := s.flags ||| 0x0200#16 }) ∧
    (s.opcode = 0xFC →
      step s = .next { s with faultAddr := s.ip, ip := s.ip + 1#16, flags := s.flags &&& ~~~0x0400#16 }) ∧
    (s.opcode = 0xFD →
      step s = .next { s with faultAddr := s.ip, ip := s.ip + 1#16, flags := s.flags ||| 0x0400#16 }))

/-- 10_state.md R38 with 45_flags.md: whatever a step does, a bit of FLAGS changes only in a cycle of CLC (bit 0), CLI or STI (bit 9),
CLD or STD (bit 10). That XOR writes none is decision D9 (log entry 10); the positions are D15 (log entry 6). -/
def Obligations.OnlyFlagInstructionsWriteFlags : Prop :=
  ∀ (s t : State) (k : Nat), step s = .next t → t.flags.getLsbD k ≠ s.flags.getLsbD k →
    s.run = .running ∧
    ((k = 0 ∧ s.opcode = 0xF8) ∨ (k = 9 ∧ (s.opcode = 0xFA ∨ s.opcode = 0xFB)) ∨
      (k = 10 ∧ (s.opcode = 0xFC ∨ s.opcode = 0xFD)))

/-! ### XOR -/

/-- 41_alu.md, R140: XOR with a legal source index completes in every state, writes its destination register with the exclusive or
of the two registers' old values, moves IP past the pair byte, and changes nothing else; no flag is written (decision D9, log
entry 10). -/
def Obligations.XorWritesOnlyItsDestination : Prop :=
  ∀ (dst : GenReg) (src : Fin 32) (r : Reg16) (s : State), r.code = src.val →
    ∃ t, exec (.xor dst src) s = .next t ∧
      t.reg16 dst.toReg16 = s.reg16 dst.toReg16 ^^^ s.reg16 r ∧ t.ip = s.ip + 1#16 ∧
      SameRegsBut [dst.toReg16] s t ∧ SameFlags s t ∧ SameSegments s t ∧ SameSequencer s t ∧ SameMemoryBut [] s t

/-- 41_alu.md, R140 corner case 1: XOR of a register with itself leaves zero, whatever it held. -/
def Obligations.XorWithItselfLeavesZero : Prop :=
  ∀ (dst : GenReg) (src : Fin 32) (s : State), src.val = dst.toReg16.code →
    ∃ t, exec (.xor dst src) s = .next t ∧ t.reg16 dst.toReg16 = 0#16

/-- 60_exceptions.md R203, R204, whole cycle: an XOR whose pair byte is below 0xC0 stops the machine with `InvalidOperand` of the source
index, IP at the pair byte, and no register, flag or memory byte written (decisions D8 and D13, log entries 9 and 13). -/
def Obligations.PairByteBelowC0StopsTheMachine : Prop :=
  ∀ s : State, s.run = .running → s.opcode = 0x31 → s.operandByte.toNat < 0xC0 →
    step s = .next { s with
      faultAddr := s.ip, ip := s.ip + 1#16, run := .faulted
      stop := .invalidOperand ((s.operandByte.toNat + 0x40) / 8) } ∧
    stepReport s = some (.error (.invalidOperand ((s.operandByte.toNat + 0x40) / 8)))

/-! ### Stack instructions -/

/-- 42_stack.md, R150: PUSH completes in every state, lowers SP by 2 modulo 2^16 (decision D5, log entry 7), stores the register's
word, low byte first, at the new SP, where PUSH SP stores the new SP (decision D11, log entry 12), and changes nothing else. The
stored bytes are the two from `stackAddress` of the state after SP is lowered; the second index does not wrap (D6, log entry 8). -/
def Obligations.PushStoresTheRegisterBelowSp : Prop :=
  ∀ (r : Reg16) (s : State),
    ∃ t, exec (.push r) s = .next t ∧
      t.sp = s.sp - 2#16 ∧
      (∀ a, stackAddress s.lowerSp = a →
        a = (s.sp - 2#16).toNat ∧
        t.byteAt a = (if r = .sp then s.sp - 2#16 else s.reg16 r).extractLsb' 0 8 ∧
        t.byteAt (a + 1) = (if r = .sp then s.sp - 2#16 else s.reg16 r).extractLsb' 8 8 ∧
        SameMemoryBut [a, a + 1] s t) ∧
      t.ip = s.ip ∧ SameRegsBut [.sp] s t ∧ SameFlags s t ∧ SameSegments s t ∧ SameSequencer s t

/-- 42_stack.md, R151: POP completes in every state, writes the register with the word at SP, low byte first, raises SP by 2 modulo 2^16
(decision D5, log entry 7), and changes nothing else; POP SP leaves the word plus 2 (decision D12, log entry 12). -/
def Obligations.PopLoadsTheWordAtSp : Prop :=
  ∀ (r : Reg16) (s : State),
    ∃ t v, exec (.pop r) s = .next t ∧
      v = (s.byteAt s.sp.toNat).setWidth 16 ||| ((s.byteAt (s.sp.toNat + 1)).setWidth 16 <<< 8) ∧
      (r ≠ .sp → t.reg16 r = v ∧ t.sp = s.sp + 2#16) ∧ (r = .sp → t.sp = v + 2#16) ∧
      t.ip = s.ip ∧ SameRegsBut [r, .sp] s t ∧ SameFlags s t ∧ SameSegments s t ∧ SameSequencer s t ∧
      SameMemoryBut [] s t

/-- 42_stack.md, R151 corner case 4: PUSH of a register followed by POP into it restores the register and SP, for every register, SP
included. -/
def Obligations.PushThenPopRestoresTheRegister : Prop :=
  ∀ (r : Reg16) (s : State),
    ∃ t u, exec (.push r) s = .next t ∧ exec (.pop r) t = .next u ∧
      SameRegsBut [] s u ∧ u.ip = s.ip ∧ SameFlags s u ∧ SameSegments s u ∧ SameSequencer s u

/-- 20_memory.md R70: whatever a step does, a byte of memory changes only in a cycle of PUSH, and only at the two indices from the new
SP up. -/
def Obligations.OnlyPushStoresToMemory : Prop :=
  ∀ (s t : State) (a : Nat), step s = .next t → t.byteAt a ≠ s.byteAt a →
    s.run = .running ∧ 0x50 ≤ s.opcode ∧ s.opcode ≤ 0x57 ∧
    (a = stackAddress s.lowerSp ∨ a = stackAddress s.lowerSp + 1)

/-! ### Moves -/

/-- 43_mov.md, R160: MOV AL, [imm16] completes in every state, loads the byte at the address into AL, leaves AH and everything else but
IP as it was. IP moves past the two address bytes. -/
def Obligations.MovAlLoadsTheByteAtItsAddress : Prop :=
  ∀ (addr : Word) (s : State),
    ∃ t, exec (.movAlMoffs addr) s = .next t ∧
      t.reg8 .al = s.byteAt addr.toNat ∧ t.reg8 .ah = s.reg8 .ah ∧ t.ip = s.ip + 2#16 ∧
      SameRegsBut [.ax] s t ∧ SameFlags s t ∧ SameSegments s t ∧ SameSequencer s t ∧ SameMemoryBut [] s t

/-- 43_mov.md, R161: opcode 0xA1 on this hardware does what 0xA0 does (decision D10, log entry 11). -/
def Obligations.MovA1LoadsOneByteIntoAl : Prop :=
  ∀ (addr : Word) (s : State),
    ∃ t, exec (.movAxMoffsObserved addr) s = .next t ∧ exec (.movAlMoffs addr) s = .next t ∧
      t.reg8 .al = s.byteAt addr.toNat ∧ t.reg8 .ah = s.reg8 .ah ∧ t.ip = s.ip + 2#16 ∧
      SameRegsBut [.ax] s t ∧ SameFlags s t ∧ SameSegments s t ∧ SameSequencer s t ∧ SameMemoryBut [] s t

/-- 43_mov.md, R161 with `MOV_A1_LOADS_WORD` true: the other reading loads the word at the address into AX, its high byte from the next
index without wrap. It is not this hardware's (log entry 11). -/
def Obligations.WordReadingOfA1LoadsAx : Prop :=
  ∀ (addr : Word) (s : State),
    ∃ t, loadA1 true addr s = .next t ∧
      t.reg8 .al = s.byteAt addr.toNat ∧ t.reg8 .ah = s.byteAt (addr.toNat + 1) ∧ t.ip = s.ip + 2#16 ∧
      SameRegsBut [.ax] s t ∧ SameFlags s t ∧ SameSegments s t ∧ SameSequencer s t ∧ SameMemoryBut [] s t

/-- 43_mov.md, R162: MOV r8, imm8 completes in every state, writes the byte view, leaves the other view of its register and everything
else but IP as it was. -/
def Obligations.MovR8WritesOneByteView : Prop :=
  ∀ (r : Reg8) (imm : Byte) (s : State),
    ∃ t, exec (.movR8Imm8 r imm) s = .next t ∧
      t.reg8 r = imm ∧ (∀ q, q ≠ r → t.reg8 q = s.reg8 q) ∧ t.ip = s.ip + 1#16 ∧
      SameRegsBut [r.cell] s t ∧ SameFlags s t ∧ SameSegments s t ∧ SameSequencer s t ∧ SameMemoryBut [] s t

/-- 43_mov.md, R163: MOV r16, imm16 completes in every state, writes the register and changes nothing else but IP. -/
def Obligations.MovR16WritesOneRegister : Prop :=
  ∀ (r : Reg16) (imm : Word) (s : State),
    ∃ t, exec (.movR16Imm16 r imm) s = .next t ∧
      t.reg16 r = imm ∧ t.ip = s.ip + 2#16 ∧
      SameRegsBut [r] s t ∧ SameFlags s t ∧ SameSegments s t ∧ SameSequencer s t ∧ SameMemoryBut [] s t

/-- 43_mov.md, R162 and R163, whole cycles: the opcode byte names the register, the immediate follows it at IP + 1 modulo 2^16, and a
word's high byte lies one index higher without wrap (decisions D4 and D7, log entries 7 and 8). -/
def Obligations.MovImmediateCyclesReadTheirOperandsAtIp : Prop :=
  (∀ (r : Reg8) (s : State), s.run = .running → s.opcode = 0xB0 + r.code →
    ∃ t, step s = .next t ∧ t.reg8 r = s.operandByte ∧ (∀ q, q ≠ r → t.reg8 q = s.reg8 q) ∧
      t.ip = s.ip + 2#16 ∧ t.faultAddr = s.ip) ∧
  (∀ (r : Reg16) (s : State), s.run = .running → s.opcode = 0xB8 + r.code →
    ∃ t, step s = .next t ∧
      t.reg16 r = s.operandByte.setWidth 16 ||| ((s.byteAt ((s.ip + 1#16).toNat + 1)).setWidth 16 <<< 8) ∧
      SameRegsBut [r] s t ∧ t.ip = s.ip + 3#16 ∧ t.faultAddr = s.ip)

/-! ### Control transfer -/

/-- 44_control.md, R170: JMP rel8 completes in every state and adds the signed displacement, plus 1 for its own byte, to IP modulo 2^16
(decision D4, log entry 7). Nothing else changes. -/
def Obligations.JmpAddsItsSignedDisplacement : Prop :=
  ∀ (rel : Byte) (s : State),
    ∃ t, exec (.jmpRel8 rel) s = .next t ∧
      (t.ip.toNat : Int) = ((s.ip.toNat : Int) + rel.toInt + 1) % 0x10000 ∧
      SameRegsBut [] s t ∧ SameFlags s t ∧ SameSegments s t ∧ SameSequencer s t ∧ SameMemoryBut [] s t

/-- 44_control.md, R170 corner case 1 and 70_reset_and_hazards.md R240: a JMP with displacement byte 0xFE leaves IP unchanged after its
cycle, wherever it lies; only `faultAddr` is written, with its address. -/
def Obligations.JmpToItselfLoopsForEver : Prop :=
  ∀ s : State, s.run = .running → s.opcode = 0xEB → s.operandByte = 0xFE#8 →
    step s = .next { s with faultAddr := s.ip } ∧
    ∀ n, runLoop (n + 1) s = .outOfFuel { s with faultAddr := s.ip }

/-- 44_control.md, R171: HLT completes in every state: it halts the machine and records the address in `faultAddr`. Nothing else changes;
over the whole cycle IP is one further (decision D20, log entry 16) and `step()` returns false. -/
def Obligations.HltHaltsAndRecordsItsAddress : Prop :=
  (∀ s : State, exec .hlt s = .next { s with run := .halted, stop := .hlt s.faultAddr }) ∧
  (∀ s : State, s.run = .running → s.opcode = 0xF4 →
    step s = .next { s with faultAddr := s.ip, ip := s.ip + 1#16, run := .halted, stop := .hlt s.ip } ∧
    stepReport s = some .notRunning)

/-! ### Memory -/

/-- 20_memory.md R63, as stated: `MemRead(a, 1)` at and above `MEM_SIZE` raises, below it returns `Mem[a]`. -/
def Obligations.ByteReadChecksItsBound : Prop :=
  ∀ (a : Nat) (s : State),
    (Config.memSize ≤ a → memRead8 a s = .error (.outOfBounds a .byte)) ∧
    (a < Config.memSize → memRead8 a s = .ok (s.mem.read a))

/-- 20_memory.md R64, as stated: `MemWrite(a, 1, v)` at and above `MEM_SIZE` raises and gives no state, below it writes byte a and no
other. -/
def Obligations.ByteWriteWritesOneByte : Prop :=
  ∀ (a : Nat) (v : Byte) (s : State),
    (Config.memSize ≤ a → memWrite8 a v s = .error (.outOfBounds a .byte)) ∧
    (a < Config.memSize → ∃ t, memWrite8 a v s = .ok t ∧ t.byteAt a = v ∧ SameMemoryBut [a] s t ∧
      SameRegsBut [] s t ∧ t.ip = s.ip ∧ SameFlags s t ∧ SameSegments s t ∧ SameSequencer s t)

/-- 20_memory.md R65, R66, R68: a word access checks `a + 1`, which does not wrap (decision D6, log entry 8); a word write puts the low
byte at a and the high byte at a + 1, or raises and writes neither; a word read gives a stored word back. -/
def Obligations.WordAccessIsLittleEndianAndWhole : Prop :=
  ∀ (a : Nat) (v : Word) (s : State),
    (Config.memSize ≤ a + 1 →
      memRead16 a s = .error (.outOfBounds a .word) ∧ memWrite16 a v s = .error (.outOfBounds a .word)) ∧
    (a + 1 < Config.memSize →
      memRead16 a s = .ok ((s.byteAt a).setWidth 16 ||| ((s.byteAt (a + 1)).setWidth 16 <<< 8)) ∧
      ∃ t, memWrite16 a v s = .ok t ∧ t.byteAt a = v.extractLsb' 0 8 ∧ t.byteAt (a + 1) = v.extractLsb' 8 8 ∧
        SameMemoryBut [a, a + 1] s t ∧ memRead16 a t = .ok v ∧
        SameRegsBut [] s t ∧ t.ip = s.ip ∧ SameFlags s t ∧ SameSegments s t ∧ SameSequencer s t)

/-- 20_memory.md R67: on this hardware no step records `OutOfBounds`: where a step's next state holds that record, the state before it
already did (log entry 18). -/
def Obligations.NoStepRaisesOutOfBounds : Prop :=
  ∀ (s t : State) (a : Nat) (n : AccessWidth), step s = .next t → t.stop = .outOfBounds a n → s.stop = .outOfBounds a n

/-- 20_memory.md R62: what a step does to everything but memory, and to the indices up to 0x10000, is the same whatever the indices above
0x10000 hold, and those indices keep their bytes. -/
def Obligations.HighMemoryIsOutOfReach : Prop :=
  ∀ (s t : State) (m : Memory), (∀ a, a ≤ 0x10000 → m.read a = s.byteAt a) → step s = .next t →
    ∃ m', step (s.setMem m) = .next (t.setMem m') ∧
      (∀ a, a ≤ 0x10000 → m'.read a = t.byteAt a) ∧
      (∀ a, 0x10000 < a → m'.read a = m.read a ∧ t.byteAt a = s.byteAt a)

/-! ### Whole-machine rules -/

/-- The invariant of a run from boot (`State.inv`: memory canonical and inside the array, `run` and `stop` in agreement, no flag but IF
and DF set, segment placeholders 0) is kept by every step from every state that has it: 10_state.md R34, R37, R40, R42. Memory's
canonical form is the model's own (log entry 1). -/
def Obligations.EveryStepKeepsTheBootInvariant : Prop :=
  ∀ s t : State, s.inv = true → step s = .next t → t.inv = true

/-- The state after reset has the invariant (10_state.md R43; memory and `faultAddr` as log entries 1 and 2 say). -/
def Obligations.ResetHasTheBootInvariant : Prop :=
  State.reset.inv = true

/-- Every launch state has the invariant, whatever the image, `INIT_FAULT_ADDR` and `INIT_MEM`, if the list that gives `INIT_MEM` is in
canonical form (70_reset_and_hazards.md R230). -/
def Obligations.EveryLaunchHasTheBootInvariant : Prop :=
  ∀ (image : List Byte) (initMem : Memory) (fa : Word) (t : State), initMem.wf = true →
    boot image initMem fa = some t → t.inv = true

/-- 10_state.md R34, R35, R39: no step reads a flag or a segment placeholder, and none writes a segment placeholder (decisions D16 and
D23, log entries 6 and 24). With every other part of the state fixed, a step answers the same whatever FLAGS and the placeholders hold: it
keeps the placeholders, keeps the bits of FLAGS in one mask and sets those in another, and the two masks depend on none of these five
words. So no bit of FLAGS comes from another bit or from a placeholder. -/
def Obligations.FlagsAndSegmentsNeverSteerAStep : Prop :=
  ∀ s t : State, step s = .next t →
    SameSegments s t ∧
    ∃ kept set : Word, t.flags = (s.flags &&& kept) ||| set ∧
      ∀ flags es cs ss ds : Word,
        step { s with flags := flags, es := es, cs := cs, ss := ss, ds := ds } =
          .next { t with flags := (flags &&& kept) ||| set, es := es, cs := cs, ss := ss, ds := ds }

/-! ### Reset, boot and the host port -/

/-- 70_reset_and_hazards.md R231, 10_state.md R43: what the boot loader leaves, for every image of at least 512 bytes, every `INIT_MEM` and
every `INIT_FAULT_ADDR`; a shorter image is refused (93_implementation_defined.md I14, log entry 20). The capacity is decision D2
(log entry 19). -/
def Obligations.BootLeavesTheLaunchState : Prop :=
  Config.memSize = 655360 ∧
  ∀ (image : List Byte) (initMem : Memory) (fa : Word),
    (image.length < 512 → boot image initMem fa = none) ∧
    (512 ≤ image.length → ∃ t, boot image initMem fa = some t ∧
      (∀ k (h : k < image.length), k < 512 → t.byteAt (0x7C00 + k) = image[k]) ∧
      (∀ a, a < 0x7C00 ∨ 0x7E00 ≤ a → t.byteAt a = initMem.read a) ∧
      (∀ r, t.reg16 r = if r = .sp then 0x7B00#16 else 0#16) ∧ t.ip = 0x7C00#16 ∧
      (∀ r, t.segReg r = 0#16) ∧
      (∀ f, t.testFlag f = true ↔ f = .interruptEnable) ∧ (∀ k, (∀ f : Flag, f.pos ≠ k) → t.flags.getLsbD k = false) ∧
      t.run = .running ∧ t.stop = .none ∧ t.faultAddr = fa)

/-- 10_state.md R43: the registers, FLAGS, run state and stop record right after reset, at the values the spec gives. `faultAddr` and memory
are not spoken of: their values are the model's (log entries 1 and 2). -/
def Obligations.ResetHoldsTheSpecsValues : Prop :=
  (∀ r, State.reset.reg16 r = if r = .sp then 0x7B00#16 else 0#16) ∧ State.reset.ip = 0x7C00#16 ∧
  (∀ r, State.reset.segReg r = 0#16) ∧ (∀ f, State.reset.testFlag f = true ↔ f = .interruptEnable) ∧
  State.reset.flags = 0x0200#16 ∧ State.reset.run = .running ∧ State.reset.stop = .none

/-- 70_reset_and_hazards.md R233: the first cycle after boot fetches at 0x7C00, so it runs the instruction the image begins with. -/
def Obligations.FirstCycleRunsTheImagesFirstInstruction : Prop :=
  ∀ (image rest : List Byte) (initMem : Memory) (fa : Word) (t : State) (i : Instr), boot image initMem fa = some t →
    decode image = .ok (i, rest) →
    t.ip = 0x7C00#16 ∧ step t = exec i { t with faultAddr := 0x7C00#16, ip := 0x7C01#16 }

/-- The host's way to place an instruction (`withFetchWord`, log entry 5): the very next step runs the instruction its bits decode to. -/
def Obligations.PlacedInstructionRunsNext : Prop :=
  ∀ (s : State) (nbits w : Nat) (i : Instr), decodeTableWord nbits w = some i →
    step (s.withFetchWord nbits w) = exec i (s.withFetchWord nbits w).beginCycle ∧
    SameRegsBut [] s (s.withFetchWord nbits w) ∧ (s.withFetchWord nbits w).ip = s.ip ∧
    SameFlags s (s.withFetchWord nbits w) ∧ SameSegments s (s.withFetchWord nbits w) ∧
    SameMemoryBut (fetchIndices s) s (s.withFetchWord nbits w)

/-- 70_reset_and_hazards.md R235: the host reads a range `[lo, hi)` inside the array byte for byte, and a range outside it is refused
(decision D25, log entry 21). -/
def Obligations.HostReadsExactlyTheBoundedRanges : Prop :=
  ∀ (lo hi : Nat) (s : State),
    (lo ≤ hi ∧ hi ≤ 655360 → ∃ bytes, hostReadRange lo hi s = .ok bytes ∧ bytes.length = hi - lo ∧
      ∀ k (h : k < bytes.length), bytes[k] = s.byteAt (lo + k)) ∧
    (¬ (lo ≤ hi ∧ hi ≤ 655360) → hostReadRange lo hi s = .error (.rangeOutsideMemory lo hi))

/-- 70_reset_and_hazards.md R237, R240: a fuelled run ends at the first stopped state: the end it reports is a stopped state that at most
that many cycles reach, each of them begun with the machine running; more fuel reports the same end. Running out of fuel is reported with
the machine still running after every one of those cycles, and the model's step never fails a run (decisions D14 and D29, log entries 4
and 25). -/
def Obligations.RunEndsAtTheFirstStoppedState : Prop :=
  ∀ (n : Nat) (s t : State),
    (runLoop n s = .halted t →
      t.run = .halted ∧ isHalted t = true ∧ (∃ m ≤ n, RunReaches m s t) ∧ ∀ k, runLoop (n + k) s = .halted t) ∧
    (runLoop n s = .faulted t →
      t.run = .faulted ∧ isHalted t = false ∧ (∃ m ≤ n, RunReaches m s t) ∧ ∀ k, runLoop (n + k) s = .faulted t) ∧
    (runLoop n s = .outOfFuel t → t.run = .running ∧ RunReaches n s t) ∧
    runLoop n s ≠ .noNextState t
end

