-- ==== Sys2Proof/Laws/State.lean ====
section
/-! SUPPORT. One lemma for each field of State under each update, so that no proof unfolds a record update. -/

namespace Sys2Proof.Machine

variable (s : State)

/-! ### setMem -/

@[simp] theorem State.setMem_ax (m : Memory) : (s.setMem m).ax = s.ax := rfl
@[simp] theorem State.setMem_cx (m : Memory) : (s.setMem m).cx = s.cx := rfl
@[simp] theorem State.setMem_dx (m : Memory) : (s.setMem m).dx = s.dx := rfl
@[simp] theorem State.setMem_bx (m : Memory) : (s.setMem m).bx = s.bx := rfl
@[simp] theorem State.setMem_sp (m : Memory) : (s.setMem m).sp = s.sp := rfl
@[simp] theorem State.setMem_bp (m : Memory) : (s.setMem m).bp = s.bp := rfl
@[simp] theorem State.setMem_si (m : Memory) : (s.setMem m).si = s.si := rfl
@[simp] theorem State.setMem_di (m : Memory) : (s.setMem m).di = s.di := rfl
@[simp] theorem State.setMem_ip (m : Memory) : (s.setMem m).ip = s.ip := rfl
@[simp] theorem State.setMem_es (m : Memory) : (s.setMem m).es = s.es := rfl
@[simp] theorem State.setMem_cs (m : Memory) : (s.setMem m).cs = s.cs := rfl
@[simp] theorem State.setMem_ss (m : Memory) : (s.setMem m).ss = s.ss := rfl
@[simp] theorem State.setMem_ds (m : Memory) : (s.setMem m).ds = s.ds := rfl
@[simp] theorem State.setMem_flags (m : Memory) : (s.setMem m).flags = s.flags := rfl
@[simp] theorem State.setMem_run (m : Memory) : (s.setMem m).run = s.run := rfl
@[simp] theorem State.setMem_faultAddr (m : Memory) : (s.setMem m).faultAddr = s.faultAddr := rfl
@[simp] theorem State.setMem_stop (m : Memory) : (s.setMem m).stop = s.stop := rfl
@[simp] theorem State.setMem_mem (m : Memory) : (s.setMem m).mem = m := rfl
@[simp] theorem State.setMem_reg16 (m : Memory) (r : Reg16) : (s.setMem m).reg16 r = s.reg16 r := by cases r <;> rfl
@[simp] theorem State.setMem_segReg (m : Memory) (r : SegReg) : (s.setMem m).segReg r = s.segReg r := by cases r <;> rfl
@[simp] theorem State.setMem_byteAt (m : Memory) (a : Nat) : (s.setMem m).byteAt a = m.read a := rfl

/-! ### endRun -/

@[simp] theorem State.endRun_ax (run : RunState) (stop : StopRecord) : (s.endRun run stop).ax = s.ax := rfl
@[simp] theorem State.endRun_cx (run : RunState) (stop : StopRecord) : (s.endRun run stop).cx = s.cx := rfl
@[simp] theorem State.endRun_dx (run : RunState) (stop : StopRecord) : (s.endRun run stop).dx = s.dx := rfl
@[simp] theorem State.endRun_bx (run : RunState) (stop : StopRecord) : (s.endRun run stop).bx = s.bx := rfl
@[simp] theorem State.endRun_sp (run : RunState) (stop : StopRecord) : (s.endRun run stop).sp = s.sp := rfl
@[simp] theorem State.endRun_bp (run : RunState) (stop : StopRecord) : (s.endRun run stop).bp = s.bp := rfl
@[simp] theorem State.endRun_si (run : RunState) (stop : StopRecord) : (s.endRun run stop).si = s.si := rfl
@[simp] theorem State.endRun_di (run : RunState) (stop : StopRecord) : (s.endRun run stop).di = s.di := rfl
@[simp] theorem State.endRun_ip (run : RunState) (stop : StopRecord) : (s.endRun run stop).ip = s.ip := rfl
@[simp] theorem State.endRun_es (run : RunState) (stop : StopRecord) : (s.endRun run stop).es = s.es := rfl
@[simp] theorem State.endRun_cs (run : RunState) (stop : StopRecord) : (s.endRun run stop).cs = s.cs := rfl
@[simp] theorem State.endRun_ss (run : RunState) (stop : StopRecord) : (s.endRun run stop).ss = s.ss := rfl
@[simp] theorem State.endRun_ds (run : RunState) (stop : StopRecord) : (s.endRun run stop).ds = s.ds := rfl
@[simp] theorem State.endRun_flags (run : RunState) (stop : StopRecord) : (s.endRun run stop).flags = s.flags := rfl
@[simp] theorem State.endRun_run (run : RunState) (stop : StopRecord) : (s.endRun run stop).run = run := rfl
@[simp] theorem State.endRun_faultAddr (run : RunState) (stop : StopRecord) : (s.endRun run stop).faultAddr = s.faultAddr := rfl
@[simp] theorem State.endRun_stop (run : RunState) (stop : StopRecord) : (s.endRun run stop).stop = stop := rfl
@[simp] theorem State.endRun_mem (run : RunState) (stop : StopRecord) : (s.endRun run stop).mem = s.mem := rfl
@[simp] theorem State.endRun_reg16 (run : RunState) (stop : StopRecord) (r : Reg16) : (s.endRun run stop).reg16 r = s.reg16 r := by cases r <;> rfl
@[simp] theorem State.endRun_segReg (run : RunState) (stop : StopRecord) (r : SegReg) : (s.endRun run stop).segReg r = s.segReg r := by cases r <;> rfl
@[simp] theorem State.endRun_byteAt (run : RunState) (stop : StopRecord) (a : Nat) : (s.endRun run stop).byteAt a = s.byteAt a := rfl

/-! ### recordFaultAddr -/

@[simp] theorem State.recordFaultAddr_ax : (s.recordFaultAddr).ax = s.ax := rfl
@[simp] theorem State.recordFaultAddr_cx : (s.recordFaultAddr).cx = s.cx := rfl
@[simp] theorem State.recordFaultAddr_dx : (s.recordFaultAddr).dx = s.dx := rfl
@[simp] theorem State.recordFaultAddr_bx : (s.recordFaultAddr).bx = s.bx := rfl
@[simp] theorem State.recordFaultAddr_sp : (s.recordFaultAddr).sp = s.sp := rfl
@[simp] theorem State.recordFaultAddr_bp : (s.recordFaultAddr).bp = s.bp := rfl
@[simp] theorem State.recordFaultAddr_si : (s.recordFaultAddr).si = s.si := rfl
@[simp] theorem State.recordFaultAddr_di : (s.recordFaultAddr).di = s.di := rfl
@[simp] theorem State.recordFaultAddr_ip : (s.recordFaultAddr).ip = s.ip := rfl
@[simp] theorem State.recordFaultAddr_es : (s.recordFaultAddr).es = s.es := rfl
@[simp] theorem State.recordFaultAddr_cs : (s.recordFaultAddr).cs = s.cs := rfl
@[simp] theorem State.recordFaultAddr_ss : (s.recordFaultAddr).ss = s.ss := rfl
@[simp] theorem State.recordFaultAddr_ds : (s.recordFaultAddr).ds = s.ds := rfl
@[simp] theorem State.recordFaultAddr_flags : (s.recordFaultAddr).flags = s.flags := rfl
@[simp] theorem State.recordFaultAddr_run : (s.recordFaultAddr).run = s.run := rfl
@[simp] theorem State.recordFaultAddr_faultAddr : (s.recordFaultAddr).faultAddr = s.ip := rfl
@[simp] theorem State.recordFaultAddr_stop : (s.recordFaultAddr).stop = s.stop := rfl
@[simp] theorem State.recordFaultAddr_mem : (s.recordFaultAddr).mem = s.mem := rfl
@[simp] theorem State.recordFaultAddr_reg16 (r : Reg16) : (s.recordFaultAddr).reg16 r = s.reg16 r := by cases r <;> rfl
@[simp] theorem State.recordFaultAddr_segReg (r : SegReg) : (s.recordFaultAddr).segReg r = s.segReg r := by cases r <;> rfl
@[simp] theorem State.recordFaultAddr_byteAt (a : Nat) : (s.recordFaultAddr).byteAt a = s.byteAt a := rfl

/-! ### advanceIp -/

@[simp] theorem State.advanceIp_ax (k : Int) : (s.advanceIp k).ax = s.ax := rfl
@[simp] theorem State.advanceIp_cx (k : Int) : (s.advanceIp k).cx = s.cx := rfl
@[simp] theorem State.advanceIp_dx (k : Int) : (s.advanceIp k).dx = s.dx := rfl
@[simp] theorem State.advanceIp_bx (k : Int) : (s.advanceIp k).bx = s.bx := rfl
@[simp] theorem State.advanceIp_sp (k : Int) : (s.advanceIp k).sp = s.sp := rfl
@[simp] theorem State.advanceIp_bp (k : Int) : (s.advanceIp k).bp = s.bp := rfl
@[simp] theorem State.advanceIp_si (k : Int) : (s.advanceIp k).si = s.si := rfl
@[simp] theorem State.advanceIp_di (k : Int) : (s.advanceIp k).di = s.di := rfl
@[simp] theorem State.advanceIp_ip (k : Int) : (s.advanceIp k).ip = BitVec.ofInt 16 ((s.ip.toNat : Int) + k) := rfl
@[simp] theorem State.advanceIp_es (k : Int) : (s.advanceIp k).es = s.es := rfl
@[simp] theorem State.advanceIp_cs (k : Int) : (s.advanceIp k).cs = s.cs := rfl
@[simp] theorem State.advanceIp_ss (k : Int) : (s.advanceIp k).ss = s.ss := rfl
@[simp] theorem State.advanceIp_ds (k : Int) : (s.advanceIp k).ds = s.ds := rfl
@[simp] theorem State.advanceIp_flags (k : Int) : (s.advanceIp k).flags = s.flags := rfl
@[simp] theorem State.advanceIp_run (k : Int) : (s.advanceIp k).run = s.run := rfl
@[simp] theorem State.advanceIp_faultAddr (k : Int) : (s.advanceIp k).faultAddr = s.faultAddr := rfl
@[simp] theorem State.advanceIp_stop (k : Int) : (s.advanceIp k).stop = s.stop := rfl
@[simp] theorem State.advanceIp_mem (k : Int) : (s.advanceIp k).mem = s.mem := rfl
@[simp] theorem State.advanceIp_reg16 (k : Int) (r : Reg16) : (s.advanceIp k).reg16 r = s.reg16 r := by cases r <;> rfl
@[simp] theorem State.advanceIp_segReg (k : Int) (r : SegReg) : (s.advanceIp k).segReg r = s.segReg r := by cases r <;> rfl
@[simp] theorem State.advanceIp_byteAt (k : Int) (a : Nat) : (s.advanceIp k).byteAt a = s.byteAt a := rfl

/-! ### lowerSp -/

@[simp] theorem State.lowerSp_ax : (s.lowerSp).ax = s.ax := rfl
@[simp] theorem State.lowerSp_cx : (s.lowerSp).cx = s.cx := rfl
@[simp] theorem State.lowerSp_dx : (s.lowerSp).dx = s.dx := rfl
@[simp] theorem State.lowerSp_bx : (s.lowerSp).bx = s.bx := rfl
@[simp] theorem State.lowerSp_sp : (s.lowerSp).sp = s.sp - 2#16 := rfl
@[simp] theorem State.lowerSp_bp : (s.lowerSp).bp = s.bp := rfl
@[simp] theorem State.lowerSp_si : (s.lowerSp).si = s.si := rfl
@[simp] theorem State.lowerSp_di : (s.lowerSp).di = s.di := rfl
@[simp] theorem State.lowerSp_ip : (s.lowerSp).ip = s.ip := rfl
@[simp] theorem State.lowerSp_es : (s.lowerSp).es = s.es := rfl
@[simp] theorem State.lowerSp_cs : (s.lowerSp).cs = s.cs := rfl
@[simp] theorem State.lowerSp_ss : (s.lowerSp).ss = s.ss := rfl
@[simp] theorem State.lowerSp_ds : (s.lowerSp).ds = s.ds := rfl
@[simp] theorem State.lowerSp_flags : (s.lowerSp).flags = s.flags := rfl
@[simp] theorem State.lowerSp_run : (s.lowerSp).run = s.run := rfl
@[simp] theorem State.lowerSp_faultAddr : (s.lowerSp).faultAddr = s.faultAddr := rfl
@[simp] theorem State.lowerSp_stop : (s.lowerSp).stop = s.stop := rfl
@[simp] theorem State.lowerSp_mem : (s.lowerSp).mem = s.mem := rfl
@[simp] theorem State.lowerSp_reg16 (r : Reg16) : (s.lowerSp).reg16 r = if r = .sp then s.sp - 2#16 else s.reg16 r := by cases r <;> rfl
@[simp] theorem State.lowerSp_segReg (r : SegReg) : (s.lowerSp).segReg r = s.segReg r := by cases r <;> rfl
@[simp] theorem State.lowerSp_byteAt (a : Nat) : (s.lowerSp).byteAt a = s.byteAt a := rfl

/-! ### raiseSp -/

@[simp] theorem State.raiseSp_ax : (s.raiseSp).ax = s.ax := rfl
@[simp] theorem State.raiseSp_cx : (s.raiseSp).cx = s.cx := rfl
@[simp] theorem State.raiseSp_dx : (s.raiseSp).dx = s.dx := rfl
@[simp] theorem State.raiseSp_bx : (s.raiseSp).bx = s.bx := rfl
@[simp] theorem State.raiseSp_sp : (s.raiseSp).sp = s.sp + 2#16 := rfl
@[simp] theorem State.raiseSp_bp : (s.raiseSp).bp = s.bp := rfl
@[simp] theorem State.raiseSp_si : (s.raiseSp).si = s.si := rfl
@[simp] theorem State.raiseSp_di : (s.raiseSp).di = s.di := rfl
@[simp] theorem State.raiseSp_ip : (s.raiseSp).ip = s.ip := rfl
@[simp] theorem State.raiseSp_es : (s.raiseSp).es = s.es := rfl
@[simp] theorem State.raiseSp_cs : (s.raiseSp).cs = s.cs := rfl
@[simp] theorem State.raiseSp_ss : (s.raiseSp).ss = s.ss := rfl
@[simp] theorem State.raiseSp_ds : (s.raiseSp).ds = s.ds := rfl
@[simp] theorem State.raiseSp_flags : (s.raiseSp).flags = s.flags := rfl
@[simp] theorem State.raiseSp_run : (s.raiseSp).run = s.run := rfl
@[simp] theorem State.raiseSp_faultAddr : (s.raiseSp).faultAddr = s.faultAddr := rfl
@[simp] theorem State.raiseSp_stop : (s.raiseSp).stop = s.stop := rfl
@[simp] theorem State.raiseSp_mem : (s.raiseSp).mem = s.mem := rfl
@[simp] theorem State.raiseSp_reg16 (r : Reg16) : (s.raiseSp).reg16 r = if r = .sp then s.sp + 2#16 else s.reg16 r := by cases r <;> rfl
@[simp] theorem State.raiseSp_segReg (r : SegReg) : (s.raiseSp).segReg r = s.segReg r := by cases r <;> rfl
@[simp] theorem State.raiseSp_byteAt (a : Nat) : (s.raiseSp).byteAt a = s.byteAt a := rfl

/-! ### setFlag -/

@[simp] theorem State.setFlag_ax (f : Flag) : (s.setFlag f).ax = s.ax := rfl
@[simp] theorem State.setFlag_cx (f : Flag) : (s.setFlag f).cx = s.cx := rfl
@[simp] theorem State.setFlag_dx (f : Flag) : (s.setFlag f).dx = s.dx := rfl
@[simp] theorem State.setFlag_bx (f : Flag) : (s.setFlag f).bx = s.bx := rfl
@[simp] theorem State.setFlag_sp (f : Flag) : (s.setFlag f).sp = s.sp := rfl
@[simp] theorem State.setFlag_bp (f : Flag) : (s.setFlag f).bp = s.bp := rfl
@[simp] theorem State.setFlag_si (f : Flag) : (s.setFlag f).si = s.si := rfl
@[simp] theorem State.setFlag_di (f : Flag) : (s.setFlag f).di = s.di := rfl
@[simp] theorem State.setFlag_ip (f : Flag) : (s.setFlag f).ip = s.ip := rfl
@[simp] theorem State.setFlag_es (f : Flag) : (s.setFlag f).es = s.es := rfl
@[simp] theorem State.setFlag_cs (f : Flag) : (s.setFlag f).cs = s.cs := rfl
@[simp] theorem State.setFlag_ss (f : Flag) : (s.setFlag f).ss = s.ss := rfl
@[simp] theorem State.setFlag_ds (f : Flag) : (s.setFlag f).ds = s.ds := rfl
@[simp] theorem State.setFlag_flags (f : Flag) : (s.setFlag f).flags = s.flags ||| f.mask := rfl
@[simp] theorem State.setFlag_run (f : Flag) : (s.setFlag f).run = s.run := rfl
@[simp] theorem State.setFlag_faultAddr (f : Flag) : (s.setFlag f).faultAddr = s.faultAddr := rfl
@[simp] theorem State.setFlag_stop (f : Flag) : (s.setFlag f).stop = s.stop := rfl
@[simp] theorem State.setFlag_mem (f : Flag) : (s.setFlag f).mem = s.mem := rfl
@[simp] theorem State.setFlag_reg16 (f : Flag) (r : Reg16) : (s.setFlag f).reg16 r = s.reg16 r := by cases r <;> rfl
@[simp] theorem State.setFlag_segReg (f : Flag) (r : SegReg) : (s.setFlag f).segReg r = s.segReg r := by cases r <;> rfl
@[simp] theorem State.setFlag_byteAt (f : Flag) (a : Nat) : (s.setFlag f).byteAt a = s.byteAt a := rfl

/-! ### clearFlag -/

@[simp] theorem State.clearFlag_ax (f : Flag) : (s.clearFlag f).ax = s.ax := rfl
@[simp] theorem State.clearFlag_cx (f : Flag) : (s.clearFlag f).cx = s.cx := rfl
@[simp] theorem State.clearFlag_dx (f : Flag) : (s.clearFlag f).dx = s.dx := rfl
@[simp] theorem State.clearFlag_bx (f : Flag) : (s.clearFlag f).bx = s.bx := rfl
@[simp] theorem State.clearFlag_sp (f : Flag) : (s.clearFlag f).sp = s.sp := rfl
@[simp] theorem State.clearFlag_bp (f : Flag) : (s.clearFlag f).bp = s.bp := rfl
@[simp] theorem State.clearFlag_si (f : Flag) : (s.clearFlag f).si = s.si := rfl
@[simp] theorem State.clearFlag_di (f : Flag) : (s.clearFlag f).di = s.di := rfl
@[simp] theorem State.clearFlag_ip (f : Flag) : (s.clearFlag f).ip = s.ip := rfl
@[simp] theorem State.clearFlag_es (f : Flag) : (s.clearFlag f).es = s.es := rfl
@[simp] theorem State.clearFlag_cs (f : Flag) : (s.clearFlag f).cs = s.cs := rfl
@[simp] theorem State.clearFlag_ss (f : Flag) : (s.clearFlag f).ss = s.ss := rfl
@[simp] theorem State.clearFlag_ds (f : Flag) : (s.clearFlag f).ds = s.ds := rfl
@[simp] theorem State.clearFlag_flags (f : Flag) : (s.clearFlag f).flags = s.flags &&& ~~~f.mask := rfl
@[simp] theorem State.clearFlag_run (f : Flag) : (s.clearFlag f).run = s.run := rfl
@[simp] theorem State.clearFlag_faultAddr (f : Flag) : (s.clearFlag f).faultAddr = s.faultAddr := rfl
@[simp] theorem State.clearFlag_stop (f : Flag) : (s.clearFlag f).stop = s.stop := rfl
@[simp] theorem State.clearFlag_mem (f : Flag) : (s.clearFlag f).mem = s.mem := rfl
@[simp] theorem State.clearFlag_reg16 (f : Flag) (r : Reg16) : (s.clearFlag f).reg16 r = s.reg16 r := by cases r <;> rfl
@[simp] theorem State.clearFlag_segReg (f : Flag) (r : SegReg) : (s.clearFlag f).segReg r = s.segReg r := by cases r <;> rfl
@[simp] theorem State.clearFlag_byteAt (f : Flag) (a : Nat) : (s.clearFlag f).byteAt a = s.byteAt a := rfl

/-! ### setReg16 -/

@[simp] theorem State.setReg16_ip (r : Reg16) (v : Word) : (s.setReg16 r v).ip = s.ip := by cases r <;> rfl
@[simp] theorem State.setReg16_es (r : Reg16) (v : Word) : (s.setReg16 r v).es = s.es := by cases r <;> rfl
@[simp] theorem State.setReg16_cs (r : Reg16) (v : Word) : (s.setReg16 r v).cs = s.cs := by cases r <;> rfl
@[simp] theorem State.setReg16_ss (r : Reg16) (v : Word) : (s.setReg16 r v).ss = s.ss := by cases r <;> rfl
@[simp] theorem State.setReg16_ds (r : Reg16) (v : Word) : (s.setReg16 r v).ds = s.ds := by cases r <;> rfl
@[simp] theorem State.setReg16_flags (r : Reg16) (v : Word) : (s.setReg16 r v).flags = s.flags := by cases r <;> rfl
@[simp] theorem State.setReg16_run (r : Reg16) (v : Word) : (s.setReg16 r v).run = s.run := by cases r <;> rfl
@[simp] theorem State.setReg16_faultAddr (r : Reg16) (v : Word) : (s.setReg16 r v).faultAddr = s.faultAddr := by cases r <;> rfl
@[simp] theorem State.setReg16_stop (r : Reg16) (v : Word) : (s.setReg16 r v).stop = s.stop := by cases r <;> rfl
@[simp] theorem State.setReg16_mem (r : Reg16) (v : Word) : (s.setReg16 r v).mem = s.mem := by cases r <;> rfl
@[simp] theorem State.setReg16_segReg (r : Reg16) (v : Word) (q : SegReg) : (s.setReg16 r v).segReg q = s.segReg q := by cases r <;> cases q <;> rfl
@[simp] theorem State.setReg16_byteAt (r : Reg16) (v : Word) (a : Nat) : (s.setReg16 r v).byteAt a = s.byteAt a := by cases r <;> rfl

/-- A register reads back what was written; every other register is unchanged. -/
@[simp] theorem State.setReg16_reg16 (r : Reg16) (v : Word) (q : Reg16) :
    (s.setReg16 r v).reg16 q = if q = r then v else s.reg16 q := by
  cases r <;> cases q <;> rfl

/-- The register SP is the field `sp`. -/
theorem State.setReg16_sp (r : Reg16) (v : Word) : (s.setReg16 r v).sp = if r = .sp then v else s.sp := by
  cases r <;> rfl

/-! ### setReg8 -/

@[simp] theorem State.setReg8_ip (r : Reg8) (v : Byte) : (s.setReg8 r v).ip = s.ip := by cases r <;> rfl
@[simp] theorem State.setReg8_es (r : Reg8) (v : Byte) : (s.setReg8 r v).es = s.es := by cases r <;> rfl
@[simp] theorem State.setReg8_cs (r : Reg8) (v : Byte) : (s.setReg8 r v).cs = s.cs := by cases r <;> rfl
@[simp] theorem State.setReg8_ss (r : Reg8) (v : Byte) : (s.setReg8 r v).ss = s.ss := by cases r <;> rfl
@[simp] theorem State.setReg8_ds (r : Reg8) (v : Byte) : (s.setReg8 r v).ds = s.ds := by cases r <;> rfl
@[simp] theorem State.setReg8_flags (r : Reg8) (v : Byte) : (s.setReg8 r v).flags = s.flags := by cases r <;> rfl
@[simp] theorem State.setReg8_run (r : Reg8) (v : Byte) : (s.setReg8 r v).run = s.run := by cases r <;> rfl
@[simp] theorem State.setReg8_faultAddr (r : Reg8) (v : Byte) : (s.setReg8 r v).faultAddr = s.faultAddr := by cases r <;> rfl
@[simp] theorem State.setReg8_stop (r : Reg8) (v : Byte) : (s.setReg8 r v).stop = s.stop := by cases r <;> rfl
@[simp] theorem State.setReg8_mem (r : Reg8) (v : Byte) : (s.setReg8 r v).mem = s.mem := by cases r <;> rfl
@[simp] theorem State.setReg8_segReg (r : Reg8) (v : Byte) (q : SegReg) : (s.setReg8 r v).segReg q = s.segReg q := by cases r <;> cases q <;> rfl
@[simp] theorem State.setReg8_byteAt (r : Reg8) (v : Byte) (a : Nat) : (s.setReg8 r v).byteAt a = s.byteAt a := by cases r <;> rfl

/-- A byte write changes the cell it belongs to and no other register. -/
@[simp] theorem State.setReg8_reg16 (r : Reg8) (v : Byte) (q : Reg16) :
    (s.setReg8 r v).reg16 q =
      if q = r.cell then
        (if r.isHigh then withHighByte (s.reg16 r.cell) v else withLowByte (s.reg16 r.cell) v)
      else s.reg16 q := by
  simp [State.setReg8]

end Sys2Proof.Machine
end

