-- ==== Sys2Proof/Laws/Bytes.lean ====
section
/-! SUPPORT. The bytes of a word: what the byte-order helpers give back of each other. -/

namespace Sys2Proof

@[simp] theorem lowByte_wordOfBytes (lo hi : Byte) : lowByte (wordOfBytes lo hi) = lo := by
  ext i h
  simp only [lowByte, wordOfBytes, BitVec.getElem_extractLsb', BitVec.getLsbD_or, BitVec.getLsbD_shiftLeft, BitVec.getLsbD_setWidth]
  interval_cases i <;> simp

@[simp] theorem highByte_wordOfBytes (lo hi : Byte) : highByte (wordOfBytes lo hi) = hi := by
  ext i h
  simp only [highByte, wordOfBytes, BitVec.getElem_extractLsb', BitVec.getLsbD_or, BitVec.getLsbD_shiftLeft, BitVec.getLsbD_setWidth]
  interval_cases i <;> simp

@[simp] theorem wordOfBytes_lowByte_highByte (v : Word) : wordOfBytes (lowByte v) (highByte v) = v := by
  ext i h
  simp only [lowByte, highByte, wordOfBytes, BitVec.getElem_or, BitVec.getElem_shiftLeft, BitVec.getElem_setWidth,
    BitVec.getLsbD_extractLsb']
  interval_cases i <;> simp

end Sys2Proof

namespace Sys2Proof.Machine

@[simp] theorem lowByte_withLowByte (x : Word) (v : Byte) : lowByte (withLowByte x v) = v := by
  ext i hi
  simp only [lowByte, withLowByte, BitVec.getElem_extractLsb', BitVec.getLsbD_or, BitVec.getLsbD_and, BitVec.getLsbD_setWidth]
  interval_cases i <;> simp

@[simp] theorem highByte_withLowByte (x : Word) (v : Byte) : highByte (withLowByte x v) = highByte x := by
  ext i hi
  simp only [highByte, withLowByte, BitVec.getElem_extractLsb', BitVec.getLsbD_or, BitVec.getLsbD_and, BitVec.getLsbD_setWidth]
  interval_cases i <;> simp

@[simp] theorem lowByte_withHighByte (x : Word) (v : Byte) : lowByte (withHighByte x v) = lowByte x := by
  ext i hi
  simp only [lowByte, withHighByte, BitVec.getElem_extractLsb', BitVec.getLsbD_or, BitVec.getLsbD_and, BitVec.getLsbD_shiftLeft, BitVec.getLsbD_setWidth]
  interval_cases i <;> simp

@[simp] theorem highByte_withHighByte (x : Word) (v : Byte) : highByte (withHighByte x v) = v := by
  ext i hi
  simp only [highByte, withHighByte, BitVec.getElem_extractLsb', BitVec.getLsbD_or, BitVec.getLsbD_and, BitVec.getLsbD_shiftLeft, BitVec.getLsbD_setWidth]
  interval_cases i <;> simp

end Sys2Proof.Machine
end

