-- ==== Sys2Proof/Laws/Decode.lean ====
section
/-! SUPPORT. The decoder's tables: no two opcode rows overlap, and the index tables invert each other. -/

namespace Sys2Proof

/-- No opcode byte matches two rows, so the order of the rows plays no part. -/
theorem opcodeTable_disjoint :
    opcodeTable.Pairwise (fun x y =>
      (x.mask &&& y.mask) &&& x.pattern ≠ (x.mask &&& y.mask) &&& y.pattern) := by
  decide

/-- Which opcode values each handler takes, as ranges of numbers (40_sequencer.md R123). -/
def Handler.takes (h : Handler) (n : Nat) : Bool :=
  match h with
  | .xor => n == 0x31
  | .push => decide (0x50 ≤ n ∧ n ≤ 0x57)
  | .pop => decide (0x58 ≤ n ∧ n ≤ 0x5F)
  | .movAlMoffs => n == 0xA0
  | .movAxMoffsObserved => n == 0xA1
  | .movR8Imm8 => decide (0xB0 ≤ n ∧ n ≤ 0xB7)
  | .movR16Imm16 => decide (0xB8 ≤ n ∧ n ≤ 0xBF)
  | .jmpRel8 => n == 0xEB
  | .hlt => n == 0xF4
  | .clc => n == 0xF8
  | .cli => n == 0xFA
  | .sti => n == 0xFB
  | .cld => n == 0xFC
  | .std => n == 0xFD

/-- The table at one opcode byte, as one truth value. -/
def handlerOfAgrees (op : Byte) : Bool :=
  match handlerOf op with
  | some h => h.takes op.toNat && decide (Machine.NamedOpcode op.toNat)
  | none => !decide (Machine.NamedOpcode op.toNat)

theorem handlerOfAgrees_all : ∀ n : Fin 256, handlerOfAgrees (BitVec.ofFin n) = true := by
  decide +kernel

theorem handlerOfAgrees_true (op : Byte) : handlerOfAgrees op = true :=
  handlerOfAgrees_all op.toFin

theorem handlerOf_some {op : Byte} {h : Handler} (e : handlerOf op = some h) :
    h.takes op.toNat = true ∧ Machine.NamedOpcode op.toNat := by
  have := handlerOfAgrees_true op
  simpa only [handlerOfAgrees, e, Bool.and_eq_true, decide_eq_true_eq] using this

theorem handlerOf_none {op : Byte} (e : handlerOf op = none) : ¬ Machine.NamedOpcode op.toNat := by
  have := handlerOfAgrees_true op
  simpa only [handlerOfAgrees, e, Bool.not_eq_true', decide_eq_false_iff_not] using this

/-- The invalid opcodes are those outside the named rows. -/
theorem handlerOf_eq_none_iff (op : Byte) : handlerOf op = none ↔ ¬ Machine.NamedOpcode op.toNat := by
  refine ⟨handlerOf_none, fun h => ?_⟩
  cases e : handlerOf op with
  | none => rfl
  | some k => exact absurd (handlerOf_some e).2 h

/-- Decoding a list whose first byte has a handler: the operand decides. -/
theorem decode_cons {op : Byte} {h : Handler} (e : handlerOf op = some h) (rest : List Byte) :
    decode (op :: rest) =
      match takeOperand h.operandSize rest with
      | none => .error (.truncated op)
      | some (operand, rest') => .ok (h.instr op operand, rest') := by
  cases t : takeOperand h.operandSize rest <;> simp only [decode, e, t]

@[simp] theorem Reg16.ofCode?_code (r : Reg16) : Reg16.ofCode? r.code = some r := by
  cases r <;> rfl

@[simp] theorem Reg8.ofCode?_code (r : Reg8) : Reg8.ofCode? r.code = some r := by
  cases r <;> rfl

theorem Reg16.ofCode?_eq_none {n : Nat} (h : 8 ≤ n) : Reg16.ofCode? n = none := by
  obtain ⟨k, rfl⟩ : ∃ k, n = k + 8 := ⟨n - 8, by omega⟩
  rfl

theorem Reg8.ofCode?_eq_none {n : Nat} (h : 8 ≤ n) : Reg8.ofCode? n = none := by
  obtain ⟨k, rfl⟩ : ∃ k, n = k + 8 := ⟨n - 8, by omega⟩
  rfl

/-- Every index below 8 names a register, and that register has the index. -/
theorem Reg16.exists_ofCode? {n : Nat} (h : n < 8) : ∃ r, Reg16.ofCode? n = some r ∧ r.code = n := by
  interval_cases n <;> exact ⟨_, rfl, rfl⟩

theorem Reg8.exists_ofCode? {n : Nat} (h : n < 8) : ∃ r, Reg8.ofCode? n = some r ∧ r.code = n := by
  interval_cases n <;> exact ⟨_, rfl, rfl⟩

@[simp] theorem Reg16.code_ofField (f : Fin 8) : (Reg16.ofField f).code = f.val := by
  fin_cases f <;> rfl

@[simp] theorem Reg8.code_ofField (f : Fin 8) : (Reg8.ofField f).code = f.val := by
  fin_cases f <;> rfl

@[simp] theorem GenReg.code_ofField (f : Fin 4) : (GenReg.ofField f).toReg16.code = f.val := by
  fin_cases f <;> rfl

theorem GenReg.toReg16_ne_sp (g : GenReg) : g.toReg16 ≠ .sp := by
  cases g <;> decide

end Sys2Proof
end

