-- ==== Sys2Proof/Laws/Memory.lean ====
section
/-! SUPPORT. The laws of the memory array: read after write, and the canonical form that every memory operation keeps. -/

namespace Sys2Proof.Machine

/-! ### Read after write -/

theorem Memory.read_insert (a b : Nat) (v : Byte) (m : Memory) :
    (m.insert a v).read b = if b = a then v else m.read b := by
  induction m with
  | nil => simp [Memory.insert, Memory.read]
  | cons cell rest ih =>
    rw [Memory.insert]
    by_cases h1 : a < cell.1
    · rw [if_pos h1, Memory.read]
    · rw [if_neg h1]
      by_cases h2 : a = cell.1
      · rw [if_pos h2, Memory.read, Memory.read, ← h2]
        by_cases hb : b = a <;> simp [hb]
      · rw [if_neg h2, Memory.read, Memory.read, ih]
        by_cases hb : b = a
        · rw [if_neg (by omega), if_pos hb, if_pos hb]
        · rw [if_neg hb, if_neg hb]

theorem Memory.read_erase (a b : Nat) (m : Memory) :
    (m.erase a).read b = if b = a then Memory.unlisted a else m.read b := by
  induction m with
  | nil => simp [Memory.erase, Memory.read]; rintro rfl; rfl
  | cons cell rest ih =>
    simp only [Memory.erase, List.filter_cons] at ih ⊢
    by_cases h : cell.1 = a
    · simp only [h, bne_self_eq_false, Bool.false_eq_true, if_false, ih, Memory.read]
      split_ifs <;> rfl
    · simp only [bne_iff_ne, ne_eq, h, not_false_eq_true, if_true, Memory.read, ih]
      split_ifs with h1 h2 <;> first | rfl | omega

/-- A read after a write: the byte written at its index, every other byte as before. -/
@[simp] theorem Memory.read_write (a b : Nat) (v : Byte) (m : Memory) :
    (m.write a v).read b = if b = a then v else m.read b := by
  unfold Memory.write
  split_ifs with hv hb hb
  · rw [Memory.read_erase, if_pos hb, hv]
  · rw [Memory.read_erase, if_neg hb]
  · rw [Memory.read_insert, if_pos hb]
  · rw [Memory.read_insert, if_neg hb]

/-! ### The canonical form -/

/-- The canonical form, as facts about the entries and their order. -/
theorem Memory.wf_iff (m : Memory) :
    m.wf = true ↔
      (∀ cell ∈ m, cell.1 < Config.memSize ∧ cell.2 ≠ Memory.unlisted cell.1) ∧
        m.Pairwise (fun x y => x.1 < y.1) := by
  induction m with
  | nil => simp [Memory.wf]
  | cons cell rest ih =>
    simp only [Memory.wf, Bool.and_eq_true, decide_eq_true_eq, bne_iff_ne, List.all_eq_true, ih, List.forall_mem_cons,
      List.pairwise_cons]
    tauto

theorem Memory.mem_insert {a : Nat} {v : Byte} {m : Memory} {cell : Host.Cell} (h : cell ∈ m.insert a v) :
    cell = (a, v) ∨ cell ∈ m := by
  induction m with
  | nil => simpa [Memory.insert] using h
  | cons head rest ih =>
    simp only [Memory.insert] at h
    split_ifs at h with h1 h2
    · simpa using h
    · rcases List.mem_cons.mp h with h | h
      · exact .inl h
      · exact .inr (List.mem_cons_of_mem _ h)
    · rcases List.mem_cons.mp h with h | h
      · exact .inr (by simp [h])
      · exact (ih h).imp_right (List.mem_cons_of_mem _)

theorem Memory.pairwise_insert (a : Nat) (v : Byte) {m : Memory} (h : m.Pairwise (fun x y => x.1 < y.1)) :
    (m.insert a v).Pairwise (fun x y => x.1 < y.1) := by
  induction m with
  | nil => simp [Memory.insert]
  | cons head rest ih =>
    obtain ⟨h1, h2⟩ := List.pairwise_cons.mp h
    simp only [Memory.insert]
    split_ifs with ha hb
    · refine List.pairwise_cons.mpr ⟨fun c hc => ?_, h⟩
      rcases List.mem_cons.mp hc with rfl | hc
      · exact ha
      · exact ha.trans (h1 c hc)
    · exact List.pairwise_cons.mpr ⟨fun c hc => by simpa [hb] using h1 c hc, h2⟩
    · refine List.pairwise_cons.mpr ⟨fun c hc => ?_, ih h2⟩
      rcases Memory.mem_insert hc with rfl | hc
      · show head.1 < a; omega
      · exact h1 c hc

theorem Memory.wf_erase (a : Nat) {m : Memory} (h : m.wf = true) : (m.erase a).wf = true := by
  rw [Memory.wf_iff] at h ⊢
  exact ⟨fun c hc => h.1 c (List.mem_of_mem_filter hc), h.2.filter _⟩

theorem Memory.wf_insert {a : Nat} {v : Byte} {m : Memory} (ha : a < Config.memSize) (hv : v ≠ Memory.unlisted a)
    (h : m.wf = true) : (m.insert a v).wf = true := by
  rw [Memory.wf_iff] at h ⊢
  refine ⟨fun c hc => ?_, Memory.pairwise_insert a v h.2⟩
  rcases Memory.mem_insert hc with rfl | hc
  · exact ⟨ha, hv⟩
  · exact h.1 c hc

/-- A write inside the array keeps the canonical form. -/
theorem Memory.wf_write {a : Nat} (v : Byte) {m : Memory} (ha : a < Config.memSize) (h : m.wf = true) :
    (m.write a v).wf = true := by
  unfold Memory.write
  split_ifs with hv
  · exact Memory.wf_erase a h
  · exact Memory.wf_insert ha hv h

/-! ### Runs of bytes -/

/-- Writing a list inside the array keeps the canonical form. -/
theorem Memory.wf_writeBytes {vs : List Byte} {a : Nat} {m : Memory} (ha : a + vs.length ≤ Config.memSize)
    (h : m.wf = true) : (Memory.writeBytes a vs m).wf = true := by
  induction vs generalizing a m with
  | nil => exact h
  | cons v rest ih =>
    simp only [List.length_cons] at ha
    exact ih (by omega) (Memory.wf_write v (by omega) h)

/-- A byte outside a written run reads as before. -/
theorem Memory.read_writeBytes_outside {vs : List Byte} {a b : Nat} {m : Memory} (hb : b < a ∨ a + vs.length ≤ b) :
    (Memory.writeBytes a vs m).read b = m.read b := by
  induction vs generalizing a m with
  | nil => rfl
  | cons v rest ih =>
    simp only [List.length_cons] at hb
    rw [Memory.writeBytes, ih (by omega), Memory.read_write, if_neg (by omega)]

/-- A byte inside a written run reads as the list has it. -/
theorem Memory.read_writeBytes_inside {vs : List Byte} {a k : Nat} {m : Memory} (hk : k < vs.length) :
    (Memory.writeBytes a vs m).read (a + k) = vs[k] := by
  induction vs generalizing a k m with
  | nil => simp at hk
  | cons v rest ih =>
    cases k with
    | zero => rw [Memory.writeBytes, Memory.read_writeBytes_outside (by omega)]; simp
    | succ n =>
      have hn : n < rest.length := by simpa using hk
      rw [Memory.writeBytes, show a + (n + 1) = a + 1 + n by omega, ih hn, List.getElem_cons_succ]

@[simp] theorem Memory.length_readBytes (a n : Nat) (m : Memory) : (Memory.readBytes a n m).length = n := by
  induction n generalizing a with
  | zero => rfl
  | succ n ih => simp [Memory.readBytes, ih]

/-- Byte k of a run that is read is the byte at its index. -/
theorem Memory.getElem_readBytes {n a k : Nat} {m : Memory} (hk : k < (Memory.readBytes a n m).length) :
    (Memory.readBytes a n m)[k] = m.read (a + k) := by
  induction n generalizing a k with
  | zero => simp [Memory.readBytes] at hk
  | succ n ih =>
    cases k with
    | zero => simp [Memory.readBytes]
    | succ j => simp only [Memory.readBytes, List.getElem_cons_succ, ih]; congr 1; omega

end Sys2Proof.Machine
end

