-- ==== Sys2Proof/Laws/Ops.lean ====
section
/-! SUPPORT. What each shared operation can do. A proof cites these and does not unfold the operations. -/

namespace Sys2Proof.Machine

open Sys2Proof

/-! ### Statements that may raise -/

@[simp] theorem attempt_ok {α : Type} (v : α) (s : State) (k : α → Result) : attempt (.ok v) s k = k v := rfl

@[simp] theorem attempt_error {α : Type} (e : Raised) (s : State) (k : α → Result) :
    attempt (.error e) s k = .next (s.endRun .faulted e.record) := rfl

/-- Everything `attempt` can answer. -/
theorem attempt_next {α : Type} {r : Except Raised α} {s t : State} {k : α → Result} (h : attempt r s k = .next t) :
    (∃ v, r = .ok v ∧ k v = .next t) ∨ (∃ e, r = .error e ∧ t = s.endRun .faulted e.record) := by
  cases r with
  | ok v => exact .inl ⟨v, rfl, h⟩
  | error e => exact .inr ⟨e, rfl, by simpa using h.symm⟩

@[simp] theorem haltWith_eq (cause : StopRecord) (s : State) : haltWith cause s = .next (s.endRun .halted cause) := rfl

@[simp] theorem haltInvalidOpcode_eq (op : Byte) (s : State) :
    haltInvalidOpcode op s = .next (s.endRun .halted (.invalidOpcode op s.faultAddr)) := rfl

/-! ### Memory primitives -/

theorem memRead8_inside {a : Nat} (h : a < Config.memSize) (s : State) : memRead8 a s = .ok (s.byteAt a) :=
  if_neg (by omega)

theorem memRead8_outside {a : Nat} (h : Config.memSize ≤ a) (s : State) :
    memRead8 a s = .error (.outOfBounds a .byte) :=
  if_pos h

theorem memRead16_inside {a : Nat} (h : a + 1 < Config.memSize) (s : State) :
    memRead16 a s = .ok (wordOfBytes (s.byteAt a) (s.byteAt (a + 1))) :=
  if_neg (by omega)

theorem memRead16_outside {a : Nat} (h : Config.memSize ≤ a + 1) (s : State) :
    memRead16 a s = .error (.outOfBounds a .word) :=
  if_pos h

theorem memWrite8_inside {a : Nat} (h : a < Config.memSize) (v : Byte) (s : State) :
    memWrite8 a v s = .ok (s.setMem (s.mem.write a v)) :=
  if_neg (by omega)

theorem memWrite8_outside {a : Nat} (h : Config.memSize ≤ a) (v : Byte) (s : State) :
    memWrite8 a v s = .error (.outOfBounds a .byte) :=
  if_pos h

theorem memWrite16_inside {a : Nat} (h : a + 1 < Config.memSize) (v : Word) (s : State) :
    memWrite16 a v s = .ok (s.setMem ((s.mem.write a (lowByte v)).write (a + 1) (highByte v))) :=
  if_neg (by omega)

theorem memWrite16_outside {a : Nat} (h : Config.memSize ≤ a + 1) (v : Word) (s : State) :
    memWrite16 a v s = .error (.outOfBounds a .word) :=
  if_pos h

/-- An address an instruction forms, and the index after it, lie inside the array (20_memory.md R62, R67). -/
theorem word_inside (a : Word) : a.toNat + 1 < Config.memSize := by
  have := a.isLt
  simp only [Config.memSize]
  omega

@[simp] theorem memRead8_word (a : Word) (s : State) : memRead8 a.toNat s = .ok (s.byteAt a.toNat) :=
  memRead8_inside (by have := word_inside a; omega) s

@[simp] theorem memRead16_word (a : Word) (s : State) :
    memRead16 a.toNat s = .ok (wordOfBytes (s.byteAt a.toNat) (s.byteAt (a.toNat + 1))) :=
  memRead16_inside (word_inside a) s

@[simp] theorem memWrite16_word (a : Word) (v : Word) (s : State) :
    memWrite16 a.toNat v s = .ok (s.setMem ((s.mem.write a.toNat (lowByte v)).write (a.toNat + 1) (highByte v))) :=
  memWrite16_inside (word_inside a) v s

/-- The operand bytes at IP, as a value: every fetch lies inside the array. -/
def operandAt (size : OperandSize) (s : State) : Word :=
  match size with
  | .none => 0#16
  | .byte => wordOfBytes (s.byteAt s.ip.toNat) 0#8
  | .word => wordOfBytes (s.byteAt s.ip.toNat) (s.byteAt (s.ip.toNat + 1))

@[simp] theorem fetchOperand_eq (size : OperandSize) (s : State) : fetchOperand size s = .ok (operandAt size s) := by
  cases size with
  | none => rfl
  | byte => rw [fetchOperand, memRead8_word]; rfl
  | word => exact memRead16_word _ _

/-- Every memory operation keeps the canonical form of a state's memory: a byte. -/
theorem memWrite8_wf {a : Nat} {v : Byte} {s t : State} (h : memWrite8 a v s = .ok t) (hs : s.mem.wf = true) :
    t.mem.wf = true := by
  by_cases ha : Config.memSize ≤ a
  · rw [memWrite8_outside ha] at h; cases h
  · rw [memWrite8_inside (by omega)] at h; cases h
    exact Memory.wf_write _ (by omega) hs

/-- Every memory operation keeps the canonical form of a state's memory: a word. -/
theorem memWrite16_wf {a : Nat} {v : Word} {s t : State} (h : memWrite16 a v s = .ok t) (hs : s.mem.wf = true) :
    t.mem.wf = true := by
  by_cases ha : Config.memSize ≤ a + 1
  · rw [memWrite16_outside ha] at h; cases h
  · rw [memWrite16_inside (by omega)] at h; cases h
    exact Memory.wf_write _ (by omega) (Memory.wf_write _ (by omega) hs)

theorem placeBytes_wf {is : List Nat} {vs : List Byte} {m : Memory} (hi : ∀ a ∈ is, a < Config.memSize)
    (hm : m.wf = true) : (placeBytes is vs m).wf = true := by
  induction is generalizing vs m with
  | nil => cases vs <;> exact hm
  | cons a rest ih =>
    cases vs with
    | nil => exact hm
    | cons v vs =>
      exact ih (fun b hb => hi b (List.mem_cons_of_mem _ hb)) (Memory.wf_write v (hi a (List.mem_cons_self ..)) hm)

/-! ### IP -/

/-- Adding a natural number to IP. -/
theorem ofInt_toNat_add (w : Word) (n : Nat) : BitVec.ofInt 16 ((w.toNat : Int) + n) = w + BitVec.ofNat 16 n := by
  apply BitVec.eq_of_toNat_eq
  simp only [BitVec.toNat_ofInt, BitVec.toNat_add, BitVec.toNat_ofNat]
  omega

theorem State.advanceIp_one (s : State) : (s.advanceIp 1).ip = s.ip + 1#16 :=
  ofInt_toNat_add s.ip 1

theorem State.advanceIp_two (s : State) : (s.advanceIp 2).ip = s.ip + 2#16 :=
  ofInt_toNat_add s.ip 2

/-- What steps 1 and 2 of a cycle write. -/
theorem State.beginCycle_eq (s : State) : s.beginCycle = { s with faultAddr := s.ip, ip := s.ip + 1#16 } := by
  have := s.recordFaultAddr.advanceIp_one
  simp only [State.advanceIp, State.recordFaultAddr] at this
  simp only [State.beginCycle, State.advanceIp, State.recordFaultAddr, this]

/-- The spec's sign extension is the two's-complement value. -/
theorem sext16_eq_toInt (b : Byte) : sext16 b = b.toInt := by
  rw [sext16, BitVec.toInt_eq_toNat_cond]
  split <;> split <;> omega

/-! ### Registers and flags -/

theorem get16_legal {code : Nat} {r : Reg16} (h : Reg16.ofCode? code = some r) (s : State) :
    get16 code s = .ok (s.reg16 r) := by
  simp [get16, h]

theorem get16_illegal {code : Nat} (h : 8 ≤ code) (s : State) : get16 code s = .error (.invalidOperand code) := by
  simp [get16, Reg16.ofCode?_eq_none h]

/-- A byte view reads back what was written to it, and the other views keep their value. -/
@[simp] theorem State.setReg8_reg8 (s : State) (r q : Reg8) (v : Byte) :
    (s.setReg8 r v).reg8 q = if q = r then v else s.reg8 q := by
  cases r <;> cases q <;> simp [State.reg8, Reg8.cell, Reg8.isHigh]

theorem Flag.pos_lt (f : Flag) : f.pos < 16 := by
  cases f <;> decide

/-- The one bit of a flag's mask. -/
theorem Flag.getLsbD_mask (f : Flag) (k : Nat) : f.mask.getLsbD k = decide (k = f.pos) := by
  have := f.pos_lt
  simp only [Flag.mask, BitVec.getLsbD_shiftLeft, BitVec.getLsbD_one]
  by_cases h : k = f.pos
  · subst h; simp [this]
  · by_cases hk : k < f.pos
    · simp [h, hk]
    · have : k - f.pos ≠ 0 := by omega
      simp [h, this]

theorem State.getLsbD_setFlag (s : State) (f : Flag) (k : Nat) :
    (s.setFlag f).flags.getLsbD k = (s.flags.getLsbD k || decide (k = f.pos)) := by
  simp [Flag.getLsbD_mask]

theorem State.getLsbD_clearFlag (s : State) (f : Flag) (k : Nat) :
    (s.clearFlag f).flags.getLsbD k = (s.flags.getLsbD k && decide (k ≠ f.pos)) := by
  by_cases hk : k < 16
  · simp only [State.clearFlag_flags, BitVec.getLsbD_and, BitVec.getLsbD_not, Flag.getLsbD_mask, hk]; simp
  · simp [BitVec.getLsbD_of_ge _ _ (by omega : 16 ≤ k)]

end Sys2Proof.Machine
end

