-- ==== Sys2Proof/Laws/Exec.lean ====
section
/-! SUPPORT. What each meaning answers: one equation each, in the shared operations. -/

namespace Sys2Proof.Machine

open Sys2Proof

theorem execXor_legal {src : Fin 32} {r : Reg16} (h : Reg16.ofCode? src.val = some r) (dst : GenReg) (s : State) :
    execXor dst src s = .next ((s.setReg16 dst.toReg16 (s.reg16 dst.toReg16 ^^^ s.reg16 r)).advanceIp 1) := by
  rw [execXor, get16_legal h, attempt_ok]

theorem execXor_illegal {src : Fin 32} (h : 8 ≤ src.val) (dst : GenReg) (s : State) :
    execXor dst src s = .next (s.endRun .faulted (.invalidOperand src.val)) := by
  rw [execXor, get16_illegal h, attempt_error]; rfl

theorem execPush_eq (r : Reg16) (s : State) :
    execPush r s = .next (s.lowerSp.setMem
      ((s.mem.write (stackAddress s.lowerSp) (lowByte (s.lowerSp.reg16 r))).write (stackAddress s.lowerSp + 1)
        (highByte (s.lowerSp.reg16 r)))) := by
  simp only [execPush, stackAddress, memWrite16_word, attempt_ok, State.lowerSp_mem]

theorem execPop_eq (r : Reg16) (s : State) :
    execPop r s = .next
      (s.setReg16 r (wordOfBytes (s.byteAt (stackAddress s)) (s.byteAt (stackAddress s + 1)))).raiseSp := by
  simp only [execPop, stackAddress, memRead16_word, attempt_ok]

theorem loadAl_eq (addr : Word) (s : State) :
    loadAl addr s = .next ((s.setReg8 .al (s.byteAt (directAddress addr))).advanceIp 2) := by
  simp only [loadAl, directAddress, memRead8_word, attempt_ok]

theorem loadAx_eq (addr : Word) (s : State) :
    loadAx addr s = .next
      ((s.setReg16 .ax (wordOfBytes (s.byteAt (directAddress addr)) (s.byteAt (directAddress addr + 1)))).advanceIp 2) := by
  simp only [loadAx, directAddress, memRead16_word, attempt_ok]

theorem execMovAxMoffsObserved_eq (addr : Word) (s : State) : execMovAxMoffsObserved addr s = loadAl addr s := rfl

/-- A handler always answers a next state, whatever the instruction and the state. -/
theorem exec_next (i : Instr) (s : State) : ∃ t, exec i s = .next t := by
  cases i with
  | xor dst src =>
    by_cases h : 8 ≤ src.val
    · exact ⟨_, execXor_illegal h dst s⟩
    · obtain ⟨r, hr, -⟩ := Reg16.exists_ofCode? (by omega : src.val < 8)
      exact ⟨_, execXor_legal hr dst s⟩
  | push r => exact ⟨_, execPush_eq r s⟩
  | pop r => exact ⟨_, execPop_eq r s⟩
  | movAlMoffs addr => exact ⟨_, loadAl_eq addr s⟩
  | movAxMoffsObserved addr => exact ⟨_, loadAl_eq addr s⟩
  | _ => exact ⟨_, rfl⟩

/-- A byte write is a word write to the cell. -/
theorem State.setReg8_eq (s : State) (r : Reg8) (v : Byte) : ∃ w, s.setReg8 r v = s.setReg16 r.cell w := ⟨_, rfl⟩

/-- The seven things a handler can do to a state: write a register and advance IP (XOR and the moves), jump, pop, push, write a
flag, halt, or raise on a source index. A proof about every instruction is a case split on this. -/
theorem exec_effects {i : Instr} {s t : State} (h : exec i s = .next t) :
    (∃ r v k, i.wellFormed = true ∧ i ≠ .hlt ∧ t = (s.setReg16 r v).advanceIp k) ∨
    (∃ rel, i = .jmpRel8 rel ∧ t = s.advanceIp (sext16 rel + 1)) ∨
    (∃ r v, i = .pop r ∧ t = (s.setReg16 r v).raiseSp) ∨
    (∃ r lo hi, i = .push r ∧ t = s.lowerSp.setMem
      ((s.mem.write (stackAddress s.lowerSp) lo).write (stackAddress s.lowerSp + 1) hi)) ∨
    (∃ f, (i = .clc ∧ f = .carry ∨ i = .cli ∧ f = .interruptEnable ∨ i = .cld ∧ f = .direction) ∧ t = s.clearFlag f ∨
      (i = .sti ∧ f = .interruptEnable ∨ i = .std ∧ f = .direction) ∧ t = s.setFlag f) ∨
    (i = .hlt ∧ t = s.endRun .halted (.hlt s.faultAddr)) ∨
    (∃ dst src, i = .xor dst src ∧ 8 ≤ src.val ∧ t = s.endRun .faulted (.invalidOperand src.val)) := by
  cases i with
  | xor dst src =>
    by_cases hs : 8 ≤ src.val
    · obtain rfl := Host.Outcome.next.inj ((execXor_illegal hs dst s).symm.trans h)
      exact .inr (.inr (.inr (.inr (.inr (.inr ⟨dst, src, rfl, hs, rfl⟩)))))
    · obtain ⟨r, hr, -⟩ := Reg16.exists_ofCode? (by omega : src.val < 8)
      obtain rfl := Host.Outcome.next.inj ((execXor_legal hr dst s).symm.trans h)
      exact .inl ⟨_, _, _, by simp [Instr.wellFormed]; omega, by simp, rfl⟩
  | push r =>
    obtain rfl := Host.Outcome.next.inj ((execPush_eq r s).symm.trans h)
    exact .inr (.inr (.inr (.inl ⟨r, _, _, rfl, rfl⟩)))
  | pop r =>
    obtain rfl := Host.Outcome.next.inj ((execPop_eq r s).symm.trans h)
    exact .inr (.inr (.inl ⟨r, _, rfl, rfl⟩))
  | movAlMoffs addr =>
    obtain rfl := Host.Outcome.next.inj ((loadAl_eq addr s).symm.trans h)
    exact .inl ⟨_, _, _, rfl, by simp, rfl⟩
  | movAxMoffsObserved addr =>
    obtain rfl := Host.Outcome.next.inj ((loadAl_eq addr s).symm.trans h)
    exact .inl ⟨_, _, _, rfl, by simp, rfl⟩
  | movR8Imm8 r imm =>
    obtain rfl := Host.Outcome.next.inj h
    exact .inl ⟨_, _, _, rfl, by simp, rfl⟩
  | movR16Imm16 r imm =>
    obtain rfl := Host.Outcome.next.inj h
    exact .inl ⟨_, _, _, rfl, by simp, rfl⟩
  | jmpRel8 rel =>
    obtain rfl := Host.Outcome.next.inj h
    exact .inr (.inl ⟨rel, rfl, rfl⟩)
  | hlt =>
    obtain rfl := Host.Outcome.next.inj h
    exact .inr (.inr (.inr (.inr (.inr (.inl ⟨rfl, rfl⟩)))))
  | clc =>
    obtain rfl := Host.Outcome.next.inj h
    exact .inr (.inr (.inr (.inr (.inl ⟨.carry, .inl ⟨by simp, rfl⟩⟩))))
  | cli =>
    obtain rfl := Host.Outcome.next.inj h
    exact .inr (.inr (.inr (.inr (.inl ⟨.interruptEnable, .inl ⟨by simp, rfl⟩⟩))))
  | sti =>
    obtain rfl := Host.Outcome.next.inj h
    exact .inr (.inr (.inr (.inr (.inl ⟨.interruptEnable, .inr ⟨by simp, rfl⟩⟩))))
  | cld =>
    obtain rfl := Host.Outcome.next.inj h
    exact .inr (.inr (.inr (.inr (.inl ⟨.direction, .inl ⟨by simp, rfl⟩⟩))))
  | std =>
    obtain rfl := Host.Outcome.next.inj h
    exact .inr (.inr (.inr (.inr (.inl ⟨.direction, .inr ⟨by simp, rfl⟩⟩))))

end Sys2Proof.Machine
end

