-- ==== Sys2Proof/Laws/Step.lean ====
section
/-! SUPPORT. Everything a step can do, and how a run goes on from a step. -/

namespace Sys2Proof.Machine

open Sys2Proof

theorem cycle_invalidOpcode {s : State} (h : handlerOf (s.byteAt s.ip.toNat) = none) :
    cycle s = .next (s.beginCycle.endRun .halted (.invalidOpcode (s.byteAt s.ip.toNat) s.ip)) := by
  simp only [cycle, memRead8_word, attempt_ok, State.recordFaultAddr_ip, State.recordFaultAddr_byteAt, h]
  rfl

theorem cycle_handler {s : State} {h : Handler} (hh : handlerOf (s.byteAt s.ip.toNat) = some h) :
    cycle s = exec (h.instr (s.byteAt s.ip.toNat) (operandAt h.operandSize s.beginCycle)) s.beginCycle := by
  simp only [cycle, memRead8_word, attempt_ok, State.recordFaultAddr_ip, State.recordFaultAddr_byteAt, hh, fetchOperand_eq]

/-- The three things a step can do: nothing when the machine has stopped, the invalid opcode handler, or the handler of the opcode
at IP with the operand after it. -/
theorem step_cases (s : State) :
    (s.run ≠ .running ∧ step s = .next s) ∨
    (s.run = .running ∧ handlerOf (s.byteAt s.ip.toNat) = none ∧
      step s = .next (s.beginCycle.endRun .halted (.invalidOpcode (s.byteAt s.ip.toNat) s.ip))) ∨
    (s.run = .running ∧ ∃ h, handlerOf (s.byteAt s.ip.toNat) = some h ∧
      step s = exec (h.instr (s.byteAt s.ip.toNat) (operandAt h.operandSize s.beginCycle)) s.beginCycle) := by
  cases hr : s.run with
  | halted => exact .inl ⟨by simp, by simp [step, stepGuarded, hr]⟩
  | faulted => exact .inl ⟨by simp, by simp [step, stepGuarded, hr]⟩
  | running =>
    have hs : step s = cycle s := by simp [step, stepGuarded, hr]
    cases hh : handlerOf (s.byteAt s.ip.toNat) with
    | none => exact .inr (.inl ⟨rfl, rfl, hs.trans (cycle_invalidOpcode hh)⟩)
    | some h => exact .inr (.inr ⟨rfl, h, rfl, hs.trans (cycle_handler hh)⟩)

/-- The bytes a cycle reads, at the indices it reads them. -/
theorem fetchWindow_eq (s : State) :
    fetchWindow s = [s.byteAt s.ip.toNat, s.byteAt (s.ip + 1#16).toNat, s.byteAt ((s.ip + 1#16).toNat + 1)] := by
  simp [fetchWindow, fetchIndices, State.beginCycle_eq]

/-- The report of a step that gives a next state. -/
theorem stepReport_next {s t : State} (h : step s = .next t) : stepReport s = some (reportOf s.run t) := by
  simp [stepReport, h]

theorem runLoop_halted {s : State} (h : s.run = .halted) (n : Nat) : runLoop n s = .halted s := by
  cases n <;> simp [runLoop, h]

theorem runLoop_faulted {s : State} (h : s.run = .faulted) (n : Nat) : runLoop n s = .faulted s := by
  cases n <;> simp [runLoop, h]

theorem runLoop_zero {s : State} (h : s.run = .running) : runLoop 0 s = .outOfFuel s := by
  simp [runLoop, h]

theorem runLoop_succ {s t : State} (h : s.run = .running) (hs : step s = .next t) (n : Nat) :
    runLoop (n + 1) s = runLoop n t := by
  simp [runLoop, h, hs]

/-- A first step, then the rest of the run. -/
theorem coreRun_succ {s t : State} (hs : step s = .next t) (n : Nat) :
    Host.Core.run Sys2Proof.core (n + 1) s = Host.Core.run Sys2Proof.core n t := by
  have h : Sys2Proof.core.step s = .next t := hs
  simp only [Host.Core.run, h]

theorem RunReaches.zero (s : State) : RunReaches 0 s s :=
  ⟨rfl, fun _ h => absurd h (Nat.not_lt_zero _)⟩

/-- A run that steps once and reaches `t` from there reaches `t`. -/
theorem RunReaches.cons {m : Nat} {s u t : State} (h : s.run = .running) (hs : step s = .next u) (ht : RunReaches m u t) :
    RunReaches (m + 1) s t := by
  refine ⟨(coreRun_succ hs m).trans ht.1, fun j hj => ?_⟩
  cases j with
  | zero => exact ⟨s, rfl, h⟩
  | succ j => rw [coreRun_succ hs]; exact ht.2 j (by omega)

end Sys2Proof.Machine
end

