-- ==== Sys2Proof/Laws/PerInstr.lean ====
section
/-! SUPPORT. A fact about every instruction as syntax, one lemma per constructor: an encoding has the length the opcode byte decides
(30_encoding.md R90, R98). -/

namespace Sys2Proof.Laws.EncodedLength

/-- The bytes of an instruction: one opcode byte, and the operand bytes its handler takes. -/
def Statement (i : Instr) : Prop :=
  ∃ op rest h, encode i = op :: rest ∧ handlerOf op = some h ∧ rest.length = h.operandSize.bytes

theorem xor (dst : GenReg) (src : Fin 32) : Statement (.xor dst src) := ⟨_, _, .xor, rfl, by decide, rfl⟩
theorem push (r : Reg16) : Statement (.push r) := ⟨_, _, .push, rfl, by cases r <;> decide, rfl⟩
theorem pop (r : Reg16) : Statement (.pop r) := ⟨_, _, .pop, rfl, by cases r <;> decide, rfl⟩
theorem movAlMoffs (addr : Word) : Statement (.movAlMoffs addr) := ⟨_, _, .movAlMoffs, rfl, by decide, rfl⟩
theorem movAxMoffsObserved (addr : Word) : Statement (.movAxMoffsObserved addr) :=
  ⟨_, _, .movAxMoffsObserved, rfl, by decide, rfl⟩
theorem movR8Imm8 (r : Reg8) (imm : Byte) : Statement (.movR8Imm8 r imm) :=
  ⟨_, _, .movR8Imm8, rfl, by cases r <;> decide, rfl⟩
theorem movR16Imm16 (r : Reg16) (imm : Word) : Statement (.movR16Imm16 r imm) :=
  ⟨_, _, .movR16Imm16, rfl, by cases r <;> decide, rfl⟩
theorem jmpRel8 (rel : Byte) : Statement (.jmpRel8 rel) := ⟨_, _, .jmpRel8, rfl, by decide, rfl⟩
theorem hlt : Statement .hlt := ⟨_, _, .hlt, rfl, by decide, rfl⟩
theorem clc : Statement .clc := ⟨_, _, .clc, rfl, by decide, rfl⟩
theorem cli : Statement .cli := ⟨_, _, .cli, rfl, by decide, rfl⟩
theorem sti : Statement .sti := ⟨_, _, .sti, rfl, by decide, rfl⟩
theorem cld : Statement .cld := ⟨_, _, .cld, rfl, by decide, rfl⟩
theorem std : Statement .std := ⟨_, _, .std, rfl, by decide, rfl⟩

end Sys2Proof.Laws.EncodedLength
end

