-- ==== Sys2Proof/Tests/Slice0.lean ====
section
/-! SUPPORT. Tests: words written out from 30_encoding.md, one-step vectors of 95_test_vectors.md, and for each statement with
hypotheses a concrete case that meets them. -/

namespace Sys2Proof.Tests

open Sys2Proof Sys2Proof.Machine

/-- The reset state with bytes at an address and IP there. -/
def startAt (ip : Word) (bytes : List Byte) : State :=
  { State.reset with ip := ip, mem := Memory.writeBytes ip.toNat bytes [] }

/-- The reset state with bytes at 0x7C00. -/
def boot7C00 (bytes : List Byte) : State :=
  startAt 0x7C00#16 bytes

/-- A view of the next state. -/
def after {α : Type} (r : Result) (view : State → α) : Option α :=
  match r with
  | .next t => some (view t)
  | .fault _ => none
  | .refused _ => none

/-! ### WellFormed refuses an ill-formed term for its one check -/

theorem test_wellFormed_refuses_source_8 : (Instr.xor .ax 8).wellFormed = false := by decide
theorem test_wellFormed_refuses_source_31 : (Instr.xor .bx 31).wellFormed = false := by decide
theorem test_wellFormed_accepts_source_7 : (Instr.xor .bx 7).wellFormed = true := by decide

/-! ### Decoding: words written out from 30_encoding.md R91 and R103, numbered as the table numbers them -/

theorem test_decode_xor : decode [0b00110001#8, 0b11011000#8] = .ok (.xor .ax 3, []) := by rfl
theorem test_decode_xor_ignores_bit_2 : decode [0b00110001#8, 0b11000100#8] = .ok (.xor .ax 0, []) := by rfl
theorem test_decode_push : decode [0b01010100#8] = .ok (.push .sp, []) := by rfl
theorem test_decode_pop : decode [0b01011011#8] = .ok (.pop .bx, []) := by rfl
theorem test_decode_movAlMoffs : decode [0b10100000#8, 0x10#8, 0x7C#8] = .ok (.movAlMoffs 0x7C10#16, []) := by rfl
theorem test_decode_movAxMoffsObserved :
    decode [0b10100001#8, 0x11#8, 0x7C#8] = .ok (.movAxMoffsObserved 0x7C11#16, []) := by rfl
theorem test_decode_movR8Imm8 : decode [0b10110111#8, 0xAB#8] = .ok (.movR8Imm8 .bh 0xAB#8, []) := by rfl
theorem test_decode_movR16Imm16 : decode [0b10111110#8, 0x22#8, 0x11#8] = .ok (.movR16Imm16 .si 0x1122#16, []) := by rfl
theorem test_decode_jmpRel8 : decode [0b11101011#8, 0b11111110#8, 0x00#8] = .ok (.jmpRel8 0xFE#8, [0x00#8]) := by rfl
theorem test_decode_hlt : decode [0b11110100#8] = .ok (.hlt, []) := by rfl
theorem test_decode_clc : decode [0b11111000#8] = .ok (.clc, []) := by rfl
theorem test_decode_cli : decode [0b11111010#8] = .ok (.cli, []) := by rfl
theorem test_decode_sti : decode [0b11111011#8] = .ok (.sti, []) := by rfl
theorem test_decode_cld : decode [0b11111100#8] = .ok (.cld, []) := by rfl
theorem test_decode_std : decode [0b11111101#8] = .ok (.std, []) := by rfl
theorem test_decode_rejects_nop : decode [0x90#8] = .error (.invalidOpcode 0x90#8) := by rfl
theorem test_decode_rejects_truncated : decode [0xB8#8, 0x34#8] = .error (.truncated 0xB8#8) := by rfl
theorem test_decode_rejects_no_bytes : decode [] = .error .noBytes := by rfl
theorem test_tableWord_bits_above_are_zero : decodeTableWord 8 0x31 = some (.xor .ax 8) := by decide
theorem test_tableWord_second_byte : decodeTableWord 24 0x1234B8 = some (.movR16Imm16 .ax 0x1234#16) := by decide
/-- 42 valid opcodes (30_encoding.md R99). -/
theorem test_opcode_count :
    ((List.range 256).filter (fun n => (handlerOf (BitVec.ofNat 8 n)).isSome)).length = 42 := by decide +kernel

/-! ### One step (95_test_vectors.md) -/

/-- X1 -/
theorem test_xor_ax_bx :
    after (step { boot7C00 [0x31#8, 0xD8#8] with ax := 0x1234#16, bx := 0x00FF#16 })
      (fun t => (t.ax, t.bx, t.ip, t.flags)) = some (0x12CB#16, 0x00FF#16, 0x7C02#16, 0x0200#16) := by decide
/-- X9 -/
theorem test_xor_pair_BF :
    after (step (boot7C00 [0x31#8, 0xBF#8])) (fun t => (t.run, t.stop, t.ip, t.faultAddr)) =
      some (.faulted, .invalidOperand 31, 0x7C01#16, 0x7C00#16) := by decide
/-- S2 -/
theorem test_push_sp :
    after (step (boot7C00 [0x54#8])) (fun t => (t.sp, t.byteAt 0x7AFE, t.byteAt 0x7AFF)) =
      some (0x7AFE#16, 0xFE#8, 0x7A#8) := by decide
/-- S4 -/
theorem test_push_at_the_top :
    after (step { boot7C00 [0x57#8] with di := 0xBEEF#16, sp := 0x0001#16 })
      (fun t => (t.sp, t.byteAt 0xFFFF, t.byteAt 0x10000, t.byteAt 0)) = some (0xFFFF#16, 0xEF#8, 0xBE#8, 0x00#8) := by
  decide
/-- S7 -/
theorem test_pop_sp :
    after (step { startAt 0x7AFE#16 [0x34#8, 0x12#8] with
      sp := 0x7AFE#16, ip := 0x7C00#16, mem := [(0x7AFE, 0x34#8), (0x7AFF, 0x12#8), (0x7C00, 0x5C#8)] })
      (fun t => (t.sp, t.ip)) = some (0x1236#16, 0x7C01#16) := by decide
/-- S9 -/
theorem test_pop_at_the_top :
    after (step { State.reset with
      sp := 0xFFFF#16, mem := [(0x7C00, 0x58#8), (0xFFFF, 0x33#8), (0x10000, 0x44#8)] })
      (fun t => (t.ax, t.sp)) = some (0x4433#16, 0x0001#16) := by decide
/-- M5 -/
theorem test_movAlMoffs :
    after (step { State.reset with
      ax := 0x1234#16, mem := [(0x7C00, 0xA0#8), (0x7C02, 0x7E#8), (0x7E00, 0xAB#8)] })
      (fun t => (t.ax, t.ip)) = some (0x12AB#16, 0x7C03#16) := by decide
/-- M11 -/
theorem test_movAlMoffs_at_the_top :
    after (step { State.reset with
      ip := 0xFFFE#16, mem := [(0x7E00, 0x5D#8), (0xFFFE, 0xA0#8), (0x10000, 0x7E#8)] })
      (fun t => (t.reg8 .al, t.ip)) = some (0x5D#8, 0x0001#16) := by decide
/-- M6 -/
theorem test_movAxMoffsObserved :
    after (step { State.reset with
      ax := 0x1234#16, mem := [(0x7C00, 0xA1#8), (0x7C02, 0x7E#8), (0x7E00, 0xAB#8), (0x7E01, 0xCD#8)] })
      (fun t => (t.ax, t.ip)) = some (0x12AB#16, 0x7C03#16) := by decide
/-- M6, with `MOV_A1_LOADS_WORD` true -/
theorem test_movA1_word_reading :
    after (loadA1 true 0x7E00#16 { State.reset with ax := 0x1234#16, mem := [(0x7E00, 0xAB#8), (0x7E01, 0xCD#8)] })
      (fun t => t.ax) = some 0xCDAB#16 := by decide
/-- V1 -/
theorem test_movR8Imm8_high :
    after (step { boot7C00 [0xB4#8, 0x12#8] with ax := 0x00FF#16 }) (fun t => (t.ax, t.sp, t.ip)) =
      some (0x12FF#16, 0x7B00#16, 0x7C02#16) := by decide
/-- M8 -/
theorem test_movR8Imm8_wraps :
    after (step { State.reset with ip := 0xFFFF#16, mem := [(0, 0x42#8), (0xFFFF, 0xB0#8)] })
      (fun t => (t.reg8 .al, t.ip)) = some (0x42#8, 0x0001#16) := by decide
/-- M9 -/
theorem test_movR16Imm16_at_the_top :
    after (step { State.reset with
      ip := 0xFFFE#16, mem := [(0xFFFE, 0xB8#8), (0xFFFF, 0x34#8), (0x10000, 0x12#8)] })
      (fun t => (t.ax, t.ip)) = some (0x1234#16, 0x0001#16) := by decide
/-- M10 -/
theorem test_movR16Imm16_wraps :
    after (step { State.reset with ip := 0xFFFF#16, mem := [(0, 0x78#8), (1, 0x56#8), (0xFFFF, 0xB8#8)] })
      (fun t => (t.ax, t.ip)) = some (0x5678#16, 0x0002#16) := by decide
/-- J6 -/
theorem test_jmpRel8_forward : after (step (startAt 0xFFF0#16 [0xEB#8, 0x7F#8])) (fun t => t.ip) = some 0x0071#16 := by decide
/-- J7 -/
theorem test_jmpRel8_back : after (step (startAt 0x0000#16 [0xEB#8, 0x80#8])) (fun t => t.ip) = some 0xFF82#16 := by decide
/-- H3 -/
theorem test_hlt :
    after (step (startAt 0xFFFF#16 [0xF4#8])) (fun t => (t.run, t.stop, t.ip, isHalted t)) =
      some (.halted, .hlt 0xFFFF#16, 0x0000#16, true) := by decide
/-- F9 -/
theorem test_clc :
    after (step { boot7C00 [0xF8#8] with flags := 0x0E01#16 }) (fun t => (t.flags, t.ip)) =
      some (0x0E00#16, 0x7C01#16) := by decide
/-- F1 -/
theorem test_cli : after (step (boot7C00 [0xFA#8])) (fun t => t.flags) = some 0x0000#16 := by decide
/-- F2 -/
theorem test_sti : after (step { boot7C00 [0xFB#8] with flags := 0#16 }) (fun t => t.flags) = some 0x0200#16 := by decide
/-- F5 -/
theorem test_cld : after (step { boot7C00 [0xFC#8] with flags := 0x0600#16 }) (fun t => t.flags) = some 0x0200#16 := by decide
/-- F4 -/
theorem test_std : after (step (boot7C00 [0xFD#8])) (fun t => t.flags) = some 0x0600#16 := by decide
/-- N5 -/
theorem test_invalid_opcode :
    after (step (startAt 0xFFFF#16 [0xFF#8])) (fun t => (t.run, t.stop, t.ip)) =
      some (.halted, .invalidOpcode 0xFF#8 0xFFFF#16, 0x0000#16) := by decide
/-- P5 -/
theorem test_word_write_is_whole :
    memWrite16 655359 0xABCD#16 State.reset = .error (.outOfBounds 655359 .word) := by rfl
/-- P6 -/
theorem test_host_range_refused : hostReadRange 655000 655361 State.reset = .error (.rangeOutsideMemory 655000 655361) := by rfl
/-- withFetchWord places the instruction where the next step reads it, also where IP is 0xFFFF. -/
theorem test_withFetchWord :
    after (step ({ State.reset with ip := 0xFFFF#16 }.withFetchWord 24 0x5678B8)) (fun t => t.ax) = some 0x5678#16 := by decide
/-- A write of the byte an unlisted index reads as removes the entry. -/
theorem test_memory_canonical : Memory.write 5 0#8 (Memory.write 5 7#8 [(3, 1#8), (9, 2#8)]) = [(3, 1#8), (9, 2#8)] := by decide

/-! ### Cases that meet the hypotheses of each statement -/

theorem witness_DecoderRejects : ¬ NamedOpcode (0x90#8).toNat ∧ NamedOpcode (0xFD#8).toNat ∧ ¬ NamedOpcode (0xFE#8).toNat := by
  decide
theorem witness_DecoderReadsEveryField :
    (7 : Nat) < 8 ∧ (pairSrc 0xBF#8).val = 31 ∧ (pairSrc 0xC0#8).val = 0 ∧ (pairSrc 0x00#8).val = 8 := by decide
theorem witness_EncodeOfDecode_bit_2 :
    decode [0x31#8, 0xC4#8] = .ok (.xor .ax 0, []) ∧ encode (.xor .ax 0) = [0x31#8, 0xC4#8 &&& 0xFB#8] := ⟨rfl, by decide⟩
theorem witness_EncodeOfDecode : decode [0x57#8] = .ok (.push .di, []) ∧ encode (.push .di) = [0x57#8] := ⟨rfl, by decide⟩
theorem witness_StepRuns :
    (boot7C00 [0xB0#8, 0x05#8]).run = .running ∧
      decode (fetchWindow (boot7C00 [0xB0#8, 0x05#8])) = .ok (.movR8Imm8 .al 0x05#8, [0x00#8]) := ⟨rfl, rfl⟩
theorem witness_InvalidOpcode :
    (boot7C00 [0x0F#8]).run = .running ∧ ¬ NamedOpcode (boot7C00 [0x0F#8]).opcode := by decide
theorem witness_Stopped : ({ State.reset with run := .faulted } : State).run ≠ .running := by decide
theorem witness_MachineStops_at_hlt :
    (boot7C00 [0xF4#8]).run = .running ∧ (boot7C00 [0xF4#8]).opcode = 0xF4 := by decide
theorem witness_MachineStops_at_pair_byte :
    (boot7C00 [0x31#8, 0xBF#8]).run = .running ∧ (boot7C00 [0x31#8, 0xBF#8]).opcode = 0x31 ∧
      (boot7C00 [0x31#8, 0xBF#8]).operandByte.toNat < 0xC0 ∧
      ¬ (boot7C00 [0x31#8, 0xC0#8]).operandByte.toNat < 0xC0 := by decide
theorem witness_EveryCycle : State.reset.run = .running := by decide
theorem witness_IpAfter :
    (boot7C00 [0xEB#8, 0x80#8]).run = .running ∧
      decode (fetchWindow (boot7C00 [0xEB#8, 0x80#8])) = .ok (.jmpRel8 0x80#8, [0x00#8]) ∧
      (Instr.jmpRel8 0x80#8).wellFormed = true := ⟨rfl, rfl, rfl⟩
theorem witness_IpAfter_word :
    (startAt 0xFFFE#16 [0xB8#8, 0x34#8, 0x12#8]).run = .running ∧
      decode (fetchWindow (startAt 0xFFFE#16 [0xB8#8, 0x34#8, 0x12#8])) = .ok (.movR16Imm16 .ax 0x1234#16, []) :=
  ⟨rfl, rfl⟩
theorem witness_IpAfter_invalidOpcode :
    (startAt 0xFFFF#16 [0x0F#8]).run = .running ∧ ¬ NamedOpcode (startAt 0xFFFF#16 [0x0F#8]).opcode := by decide
theorem witness_WordWrite :
    Reg8.cell .ah = .ax ∧ Reg8.cell .al = .ax ∧ Reg8.isHigh .al = false ∧ Reg8.isHigh .ah = true := by decide
theorem witness_RegisterFile : get16 8 State.reset = .error (.invalidOperand 8) ∧ get16 7 State.reset = .ok 0#16 := ⟨rfl, rfl⟩
theorem witness_RegisterFile_bytes :
    get8 8 State.reset = .error (.invalidOperand 8) ∧ get8 7 { State.reset with bx := 0x1200#16 } = .ok 0x12#8 ∧
      Reg8.code .bh = 7 := ⟨rfl, rfl, rfl⟩
theorem witness_NamedFlags_reserved : (15 = 1 ∨ 15 = 3 ∨ 15 = 5 ∨ 12 ≤ 15) ∧ ¬ (11 = 1 ∨ 11 = 3 ∨ 11 = 5 ∨ 12 ≤ 11) := by decide
theorem witness_FlagAccess :
    State.reset.testFlag .interruptEnable = true ∧ State.reset.testFlag .overflow = false ∧
      Flag.interruptEnable ≠ .overflow ∧ (0 : Nat) ≠ Flag.interruptEnable.pos := by decide
theorem witness_FlagInstructions :
    (boot7C00 [0xF8#8]).run = .running ∧ (boot7C00 [0xF8#8]).opcode = 0xF8 ∧ (boot7C00 [0xFA#8]).opcode = 0xFA ∧
      (boot7C00 [0xFB#8]).opcode = 0xFB ∧ (boot7C00 [0xFC#8]).opcode = 0xFC ∧ (boot7C00 [0xFD#8]).opcode = 0xFD := by
  decide
theorem witness_OnlyFlagInstructions :
    ∃ t, step (boot7C00 [0xFD#8]) = .next t ∧
      t.flags.getLsbD 10 ≠ (boot7C00 [0xFD#8]).flags.getLsbD 10 := ⟨_, rfl, by decide⟩
theorem witness_Xor : Reg16.code .di = (7 : Fin 32).val := by decide
theorem witness_XorWithItself : (3 : Fin 32).val = (GenReg.toReg16 .bx).code := by decide
theorem witness_PairByteBelowC0 :
    (boot7C00 [0x31#8, 0x00#8]).run = .running ∧ (boot7C00 [0x31#8, 0x00#8]).opcode = 0x31 ∧
      (boot7C00 [0x31#8, 0x00#8]).operandByte.toNat < 0xC0 := by decide
theorem witness_Push : stackAddress ({ State.reset with sp := 0x0001#16 } : State).lowerSp = 0xFFFF := by decide
theorem witness_Pop : Reg16.ax ≠ .sp ∧ Reg16.sp = .sp := by decide
theorem witness_OnlyPush :
    ∃ t, step { boot7C00 [0x54#8] with sp := 0x0000#16 } = .next t ∧
      t.byteAt 0xFFFE ≠ ({ boot7C00 [0x54#8] with sp := 0x0000#16 } : State).byteAt 0xFFFE ∧
      t.byteAt 0xFFFF ≠ ({ boot7C00 [0x54#8] with sp := 0x0000#16 } : State).byteAt 0xFFFF := ⟨_, rfl, by decide, by decide⟩
theorem witness_MovImmediateCycles_byte :
    (startAt 0xFFFF#16 [0xB7#8]).run = .running ∧ (startAt 0xFFFF#16 [0xB7#8]).opcode = 0xB0 + Reg8.code .bh := by decide
theorem witness_MovImmediateCycles_word :
    (startAt 0xFFFE#16 [0xBF#8]).run = .running ∧ (startAt 0xFFFE#16 [0xBF#8]).opcode = 0xB8 + Reg16.code .di := by decide
theorem witness_JmpToItself :
    (boot7C00 [0xEB#8, 0xFE#8]).run = .running ∧ (boot7C00 [0xEB#8, 0xFE#8]).opcode = 0xEB ∧
      (boot7C00 [0xEB#8, 0xFE#8]).operandByte = 0xFE#8 := by decide
theorem witness_Hlt : (startAt 0xFFFF#16 [0xF4#8]).run = .running ∧ (startAt 0xFFFF#16 [0xF4#8]).opcode = 0xF4 := by decide
theorem witness_ByteAccess_bounds : Config.memSize ≤ 655360 ∧ 655359 < Config.memSize := by decide
theorem witness_WordAccess_bounds : Config.memSize ≤ 655359 + 1 ∧ 655358 + 1 < Config.memSize := by decide
theorem witness_NoStepRaises :
    step { State.reset with run := .faulted, stop := .outOfBounds 655360 .byte } =
      .next { State.reset with run := .faulted, stop := .outOfBounds 655360 .byte } := by rfl
theorem witness_HighMemory :
    (∀ a, a ≤ 0x10000 → Memory.read a [(0x10001, 1#8)] = State.reset.byteAt a) ∧ ∃ t, step State.reset = .next t := by
  refine ⟨fun a h => ?_, _, rfl⟩
  have : a ≠ 0x10001 := by omega
  simp [Memory.read, this, State.byteAt, State.reset]
theorem witness_BootInvariant :
    (boot7C00 [0x50#8]).inv = true ∧ ∃ t, step (boot7C00 [0x50#8]) = .next t := ⟨by decide, _, rfl⟩
theorem witness_Launch :
    Memory.wf [(0, 7#8)] = true ∧ ∃ t, boot (List.replicate 512 0xF4#8) [(0, 7#8)] 0xFFFF#16 = some t :=
  ⟨by decide, _, if_neg (by rw [List.length_replicate]; decide)⟩
theorem witness_FlagsAndSegments :
    (∃ t, step (boot7C00 [0xFA#8]) = .next t) ∧
      after (step { boot7C00 [0xFA#8] with flags := 0xFFFF#16, es := 0x0001#16 }) (fun t => (t.flags, t.es)) =
        some (0xFDFF#16, 0x0001#16) := ⟨⟨_, rfl⟩, by decide⟩
theorem witness_Boot_lengths :
    (List.replicate 511 0xF4#8).length < 512 ∧ 512 ≤ (List.replicate 512 0xF4#8).length := by
  rw [List.length_replicate, List.length_replicate]
  decide
theorem witness_FirstCycle :
    (∃ t, boot (0xF4#8 :: List.replicate 511 0xF4#8) [] 0#16 = some t) ∧
      decode (0xF4#8 :: List.replicate 511 0xF4#8) = .ok (.hlt, List.replicate 511 0xF4#8) :=
  ⟨⟨_, if_neg (by rw [List.length_cons, List.length_replicate]; decide)⟩, rfl⟩
theorem witness_Placed : decodeTableWord 16 0xD831 = some (.xor .ax 3) := by decide
theorem witness_HostRange_inside : 655359 ≤ 655360 ∧ 655360 ≤ (655360 : Nat) := by decide
theorem witness_HostRange_outside : ¬ ((655000 : Nat) ≤ 655361 ∧ 655361 ≤ 655360) := by decide
theorem witness_RunEnds_halted : ∃ t, runLoop 2 (boot7C00 [0xF8#8, 0xF4#8]) = .halted t := ⟨_, rfl⟩
theorem witness_RunEnds_faulted : ∃ t, runLoop 1 (boot7C00 [0x31#8, 0x3F#8]) = .faulted t := ⟨_, rfl⟩
theorem witness_RunEnds_outOfFuel : ∃ t, runLoop 3 (boot7C00 [0xEB#8, 0xFE#8]) = .outOfFuel t := ⟨_, rfl⟩

end Sys2Proof.Tests
end

section
/-! PROOFS. 10_state.md R24, R25 and R36: what a byte write, a word write and a flag write change, and what they leave as it was. -/

namespace Sys2Proof.Machine

open Sys2Proof

section

variable (s : State)

/-! ### Byte and word views of one cell -/

/-- A byte view after a word write: the byte of the word it stands for, or its old value where it belongs to another cell. -/
@[simp] theorem State.setReg16_reg8 (r : Reg16) (v : Word) (q : Reg8) :
    (s.setReg16 r v).reg8 q =
      if q.cell = r then (if q.isHigh then highByte v else lowByte v) else s.reg8 q := by
  by_cases h : q.cell = r <;> simp [State.reg8, h]

/-- A register with byte views reads as the word its two bytes make (10_state.md R25). -/
theorem State.reg16_eq_wordOfBytes {r : Reg16} {lo hi : Reg8} (hlo : lo.cell = r) (hhi : hi.cell = r)
    (hlow : lo.isHigh = false) (hhigh : hi.isHigh = true) :
    s.reg16 r = wordOfBytes (s.reg8 lo) (s.reg8 hi) := by
  simp [State.reg8, hlo, hhi, hlow, hhigh]

/-! ### One flag of FLAGS -/

/-- No two flags share a bit of FLAGS. -/
theorem Flag.pos_injective : Function.Injective Flag.pos := by
  intro f g h
  cases f <;> cases g <;> cases h <;> rfl

/-- A flag tests true after a set of it, and as before after a set of another. -/
@[simp] theorem State.setFlag_testFlag (f g : Flag) :
    (s.setFlag f).testFlag g = (s.testFlag g || decide (g = f)) := by
  simp only [State.testFlag, State.getLsbD_setFlag, Flag.pos_injective.eq_iff]

/-- A flag tests false after a clear of it, and as before after a clear of another. -/
@[simp] theorem State.clearFlag_testFlag (f g : Flag) :
    (s.clearFlag f).testFlag g = (s.testFlag g && decide (g ≠ f)) := by
  simp only [State.testFlag, State.getLsbD_clearFlag, ne_eq, Flag.pos_injective.eq_iff]

/-- Setting a flag keeps every other bit of FLAGS, defined or reserved. -/
theorem State.getLsbD_setFlag_of_ne {f : Flag} {k : Nat} (hk : k ≠ f.pos) :
    (s.setFlag f).flags.getLsbD k = s.flags.getLsbD k := by
  rw [s.getLsbD_setFlag, decide_eq_false hk, Bool.or_false]

/-- Clearing a flag keeps every other bit of FLAGS, defined or reserved. -/
theorem State.getLsbD_clearFlag_of_ne {f : Flag} {k : Nat} (hk : k ≠ f.pos) :
    (s.clearFlag f).flags.getLsbD k = s.flags.getLsbD k := by
  rw [s.getLsbD_clearFlag, decide_eq_true hk, Bool.and_true]

/-- Writing FLAGS with what it holds changes nothing. -/
theorem State.withFlags_eq_self {w : Word} (h : w = s.flags) : { s with flags := w } = s := by
  rw [h]

/-- Setting a set flag leaves the state as it was: its own bit is 1 already, and the others are kept. -/
theorem State.setFlag_eq_self {f : Flag} (h : s.testFlag f = true) : s.setFlag f = s := by
  have hflags : (s.setFlag f).flags = s.flags := BitVec.eq_of_getLsbD_eq fun k _ => by
    by_cases hk : k = f.pos
    · subst hk
      show (s.setFlag f).testFlag f = s.testFlag f
      simp [h]
    · exact s.getLsbD_setFlag_of_ne hk
  exact s.withFlags_eq_self hflags

/-- Clearing a clear flag leaves the state as it was: its own bit is 0 already, and the others are kept. -/
theorem State.clearFlag_eq_self {f : Flag} (h : s.testFlag f = false) : s.clearFlag f = s := by
  have hflags : (s.clearFlag f).flags = s.flags := BitVec.eq_of_getLsbD_eq fun k _ => by
    by_cases hk : k = f.pos
    · subst hk
      show (s.clearFlag f).testFlag f = s.testFlag f
      simp [h]
    · exact s.getLsbD_clearFlag_of_ne hk
  exact s.withFlags_eq_self hflags

end

/-! ### The statements -/

/-- Settles O13: the cell and the views by the rules of a byte write, the rest by its frame. -/
theorem byteWriteKeepsTheOtherHalf : Obligations.ByteWriteKeepsTheOtherHalf := by
  intro s r v
  have hcell := s.setReg8_reg16 r v r.cell
  rw [if_pos rfl] at hcell
  refine ⟨hcell, fun q => s.setReg8_reg8 r q v, fun q hq => ?_, s.setReg8_ip r v, s.setReg8_flags r v,
    s.setReg8_segReg r v, ⟨s.setReg8_run r v, s.setReg8_faultAddr r v, s.setReg8_stop r v⟩,
    fun a _ => s.setReg8_byteAt r v a⟩
  rw [s.setReg8_reg16, if_neg (by simpa using hq)]

/-- Settles O14: the register and its views by the rules of a word write, the word read by the bytes of a word. -/
theorem wordWriteOverwritesBothHalves : Obligations.WordWriteOverwritesBothHalves := by
  intro s r v
  refine ⟨?_, fun q hq => ?_, fun lo hi hlo hhi hlow hhigh => ?_⟩
  · rw [s.setReg16_reg16, if_pos rfl]
  · rw [s.setReg16_reg8, if_pos hq]; rfl
  · rw [s.reg16_eq_wordOfBytes hlo hhi hlow hhigh, wordOfBytes, BitVec.or_comm]

/-- Settles O16: the two formulas are the definitions; the rest is what each operation does to one bit and to one flag. -/
theorem flagAccessTouchesOneBit : Obligations.FlagAccessTouchesOneBit := by
  intro s f
  refine ⟨rfl, rfl, by simp, by simp, fun k hk => ⟨s.getLsbD_setFlag_of_ne hk, s.getLsbD_clearFlag_of_ne hk⟩,
    fun g hg => ⟨?_, ?_⟩, s.setFlag_eq_self, s.clearFlag_eq_self⟩
  · rw [s.setFlag_testFlag, decide_eq_false hg, Bool.or_false]
  · rw [s.clearFlag_testFlag, decide_eq_true hg, Bool.and_true]

end Sys2Proof.Machine
end

section
/-! PROOFS. 20_memory.md R63 and R64: the bound of a byte access, the byte a write stores, and what it leaves as it was. -/

namespace Sys2Proof.Machine

open Sys2Proof

/-! ### The frame of a store -/

/-- Replacing memory keeps every register, IP, FLAGS, the segment placeholders and the sequencer's fields. -/
theorem State.setMem_frame (s : State) (m : Memory) :
    SameRegsBut [] s (s.setMem m) ∧ (s.setMem m).ip = s.ip ∧ SameFlags s (s.setMem m) ∧
      SameSegments s (s.setMem m) ∧ SameSequencer s (s.setMem m) :=
  ⟨fun r _ => s.setMem_reg16 m r, s.setMem_ip m, s.setMem_flags m, s.setMem_segReg m,
    s.setMem_run m, s.setMem_faultAddr m, s.setMem_stop m⟩

/-- The index stored to reads as the byte stored. -/
theorem State.byteAt_setMem_write_self (s : State) (a : Nat) (v : Byte) :
    (s.setMem (s.mem.write a v)).byteAt a = v := by
  rw [s.setMem_byteAt, Memory.read_write, if_pos rfl]

/-- A byte stored changes what no other index reads as. -/
theorem State.sameMemoryBut_setMem_write (s : State) (a : Nat) (v : Byte) :
    SameMemoryBut [a] s (s.setMem (s.mem.write a v)) := by
  intro b hb
  have hne : b ≠ a := fun h => hb (List.mem_singleton.mpr h)
  rw [s.setMem_byteAt, Memory.read_write, if_neg hne]
  rfl

/-! ### The statements -/

/-- Settles O36: the bound decides between the error and the store, whose effect is one byte and its frame. -/
theorem byteWriteWritesOneByte : Obligations.ByteWriteWritesOneByte := by
  intro a v s
  refine ⟨fun hout => memWrite8_outside hout v s, fun hin => ⟨_, memWrite8_inside hin v s, ?_⟩⟩
  exact ⟨s.byteAt_setMem_write_self a v, s.sameMemoryBut_setMem_write a v, s.setMem_frame _⟩

/-- Settles O35: the two sides of the bound are the two rules of a byte read. -/
theorem byteReadChecksItsBound : Obligations.ByteReadChecksItsBound :=
  fun _ s => ⟨fun hout => memRead8_outside hout s, fun hin => memRead8_inside hin s⟩

end Sys2Proof.Machine
end

section
/-! PROOFS. 40_sequencer.md R121: the address a cycle records, which no handler writes again. -/

namespace Sys2Proof.Machine

open Sys2Proof

/-- What steps 1 and 2 of a cycle record is IP before its advance. -/
@[simp] theorem State.beginCycle_faultAddr (s : State) : s.beginCycle.faultAddr = s.ip := by
  rw [State.beginCycle, State.advanceIp_faultAddr, State.recordFaultAddr_faultAddr]

/-- No handler writes `faultAddr`: each of the things it can do to a state is made of operations that keep it. -/
theorem exec_keeps_faultAddr {i : Instr} {s t : State} (h : exec i s = .next t) : t.faultAddr = s.faultAddr := by
  obtain ⟨r, v, k, -, -, rfl⟩ | ⟨rel, -, rfl⟩ | ⟨r, v, -, rfl⟩ | ⟨r, lo, hi, -, rfl⟩ |
    ⟨f, ⟨-, rfl⟩ | ⟨-, rfl⟩⟩ | ⟨-, rfl⟩ | ⟨dst, src, -, -, rfl⟩ := exec_effects h
  · rw [State.advanceIp_faultAddr, State.setReg16_faultAddr]
  · exact s.advanceIp_faultAddr _
  · rw [State.raiseSp_faultAddr, State.setReg16_faultAddr]
  · rw [State.setMem_faultAddr, State.lowerSp_faultAddr]
  · exact s.clearFlag_faultAddr f
  · exact s.setFlag_faultAddr f
  · exact s.endRun_faultAddr _ _
  · exact s.endRun_faultAddr _ _

/-- Settles O11: the cycle records IP before it dispatches, and neither the invalid opcode handler nor any other writes the
record again. -/
theorem everyCycleRecordsItsAddress : Obligations.EveryCycleRecordsItsAddress := by
  intro s hrun
  obtain ⟨hstopped, -⟩ | ⟨-, -, hstep⟩ | ⟨-, h, -, hstep⟩ := step_cases s
  · exact absurd hrun hstopped
  · exact ⟨_, hstep, by rw [State.endRun_faultAddr, State.beginCycle_faultAddr]⟩
  · obtain ⟨t, hexec⟩ := exec_next (h.instr (s.byteAt s.ip.toNat) (operandAt h.operandSize s.beginCycle)) s.beginCycle
    exact ⟨t, hstep.trans hexec, (exec_keeps_faultAddr hexec).trans s.beginCycle_faultAddr⟩

end Sys2Proof.Machine
end

section
/-! PROOFS. 30_encoding.md R91 to R103: the decoder and the encoder, against each other and against the named rows. -/

namespace Sys2Proof

open Sys2Proof.Machine

/-! ### Fields -/

theorem registerField_val (op : Byte) : (registerField op).val = op.toNat % 8 := by
  simp [registerField]

/-- The register field of an opcode that adds an index below 8 to the first opcode of its row. -/
theorem registerField_row_add {base : Byte} (hbase : base.toNat % 8 = 0) {k : Nat} (hk : k < 8) :
    (registerField (base + BitVec.ofNat 8 k)).val = k := by
  rw [registerField_val, BitVec.toNat_add, BitVec.toNat_ofNat]
  omega

/-- An opcode of a row of eight is the row's first opcode plus its register field. -/
theorem row_add_registerField {base op : Byte} (hbase : base.toNat % 8 = 0) (hlow : base.toNat ≤ op.toNat)
    (hhigh : op.toNat < base.toNat + 8) : base + BitVec.ofNat 8 (registerField op).val = op := by
  have := op.isLt
  apply BitVec.eq_of_toNat_eq
  rw [registerField_val, BitVec.toNat_add, BitVec.toNat_ofNat]
  omega

theorem Reg16.code_lt (r : Reg16) : r.code < 8 := by cases r <;> decide

theorem Reg8.code_lt (r : Reg8) : r.code < 8 := by cases r <;> decide

theorem Reg16.code_injective : Function.Injective Reg16.code := fun r q h => by
  have := congrArg Reg16.ofCode? h
  simpa using this

theorem Reg8.code_injective : Function.Injective Reg8.code := fun r q h => by
  have := congrArg Reg8.ofCode? h
  simpa using this

/-- A register's opcode in a row of eight names the register: a 16-bit register. -/
theorem Reg16.ofField_row_add {base : Byte} (hbase : base.toNat % 8 = 0) (r : Reg16) :
    Reg16.ofField (registerField (base + BitVec.ofNat 8 r.code)) = r :=
  Reg16.code_injective ((Reg16.code_ofField _).trans (registerField_row_add hbase r.code_lt))

/-- A register's opcode in a row of eight names the register: a byte view. -/
theorem Reg8.ofField_row_add {base : Byte} (hbase : base.toNat % 8 = 0) (r : Reg8) :
    Reg8.ofField (registerField (base + BitVec.ofNat 8 r.code)) = r :=
  Reg8.code_injective ((Reg8.code_ofField _).trans (registerField_row_add hbase r.code_lt))

/-! ### The pair byte of XOR -/

/-- Subtracting 0xC0 modulo 2^8 is adding 0x40. -/
theorem pairReg_toNat (p : Byte) : (pairReg p).toNat = (p.toNat + 0x40) % 0x100 := by
  simp only [pairReg, BitVec.toNat_sub, BitVec.toNat_ofNat]
  omega

theorem pairDst_code (p : Byte) : (pairDst p).toReg16.code = p.toNat % 4 := by
  have hreg := pairReg_toNat p
  rw [pairDst, GenReg.code_ofField]
  show (pairReg p).toNat % 4 = _
  omega

theorem pairSrc_val (p : Byte) : (pairSrc p).val = (p.toNat + 0x40) % 0x100 / 8 := by
  show (pairReg p).toNat / 8 = _
  rw [pairReg_toNat]

/-- The source index of a pair byte is above 7 exactly when the byte is below 0xC0. -/
theorem pairSrc_illegal_iff (p : Byte) : 8 ≤ (pairSrc p).val ↔ p.toNat < 0xC0 := by
  have := p.isLt
  rw [pairSrc_val]
  omega

/-- The source index, with the subtraction written out on each side of 0xC0. -/
theorem pairSrc_val_cases (p : Byte) :
    (pairSrc p).val = if 0xC0 ≤ p.toNat then p.toNat / 8 % 8 else (p.toNat + 0x40) / 8 := by
  have := p.isLt
  rw [pairSrc_val]
  split <;> omega

theorem pairSrc_illegal {p : Byte} (h : p.toNat < 0xC0) : (pairSrc p).val = (p.toNat + 0x40) / 8 := by
  rw [pairSrc_val]
  omega

theorem GenReg.code_lt (g : GenReg) : g.toReg16.code < 4 := by cases g <;> decide

theorem GenReg.code_injective : Function.Injective fun g : GenReg => g.toReg16.code := by
  intro g q h
  cases g <;> cases q <;> cases h <;> rfl

theorem pairByte_toNat (dst : GenReg) (src : Fin 32) :
    (pairByte dst src).toNat = (src.val * 8 + dst.toReg16.code + 0xC0) % 0x100 := by
  simp [pairByte, BitVec.toNat_add]

@[simp] theorem pairDst_pairByte (dst : GenReg) (src : Fin 32) : pairDst (pairByte dst src) = dst := by
  have := dst.code_lt
  refine GenReg.code_injective ?_
  show (pairDst (pairByte dst src)).toReg16.code = dst.toReg16.code
  rw [pairDst_code, pairByte_toNat]
  omega

@[simp] theorem pairSrc_pairByte (dst : GenReg) (src : Fin 32) : pairSrc (pairByte dst src) = src := by
  have := dst.code_lt
  refine Fin.ext ?_
  rw [pairSrc_val, pairByte_toNat]
  omega

/-- The encoder gives a decoded pair byte back with bit 2 clear: a fact about the 256 bytes. -/
theorem pairByte_pair : ∀ p : Byte, pairByte (pairDst p) (pairSrc p) = p &&& 0xFB#8 := by
  decide

theorem clear_bit2_eq_self {p : Byte} (h : p.getLsbD 2 = false) : p &&& 0xFB#8 = p := by
  ext i hi
  by_cases hi2 : i = 2
  · subst hi2
    simpa using h.symm
  · rw [BitVec.getElem_and]
    interval_cases i <;> simp at hi2 ⊢

/-! ### The operand -/

/-- The bytes an operand of a size is read from. -/
def operandBytes : OperandSize → Word → List Byte
  | .none, _ => []
  | .byte, w => [lowByte w]
  | .word, w => [lowByte w, highByte w]

/-- A little-endian word as a number. -/
theorem wordOfBytes_toNat (lo hi : Byte) : (wordOfBytes lo hi).toNat = lo.toNat + 0x100 * hi.toNat := by
  have hlo := lo.isLt
  have hhi := hi.isLt
  have hshift : hi.toNat <<< 8 < 2 ^ 16 := by rw [Nat.shiftLeft_eq]; omega
  simp only [wordOfBytes, BitVec.toNat_or, BitVec.toNat_shiftLeft, BitVec.toNat_setWidth,
    Nat.mod_eq_of_lt (by omega : lo.toNat < 2 ^ 16), Nat.mod_eq_of_lt (by omega : hi.toNat < 2 ^ 16),
    Nat.mod_eq_of_lt hshift]
  rw [Nat.or_comm, ← Nat.shiftLeft_add_eq_or_of_lt hlo, Nat.shiftLeft_eq]
  omega

/-- What `takeOperand` took are the operand's bytes. -/
theorem takeOperand_some {size : OperandSize} {tail rest : List Byte} {operand : Word}
    (h : takeOperand size tail = some (operand, rest)) : tail = operandBytes size operand ++ rest := by
  match size, tail with
  | .none, _ => cases h; rfl
  | .byte, _ :: _ => cases h; simp [operandBytes]
  | .word, _ :: _ :: _ => cases h; simp [operandBytes]
  | .byte, [] => cases h
  | .word, [] => cases h
  | .word, [_] => cases h

/-- A list decodes where its first byte has a handler and the operand is there. -/
theorem decode_of_takeOperand {op : Byte} {h : Handler} {tail rest : List Byte} {operand : Word}
    {i : Instr} (e : handlerOf op = some h) (ht : takeOperand h.operandSize tail = some (operand, rest))
    (hi : h.instr op operand = i) : decode (op :: tail) = .ok (i, rest) := by
  simp only [decode_cons e, ht, hi]

/-- The only way a list decodes. -/
theorem decode_ok {bytes rest : List Byte} {i : Instr} (hd : decode bytes = .ok (i, rest)) :
    ∃ op tail h operand, handlerOf op = some h ∧ takeOperand h.operandSize tail = some (operand, rest) ∧
      i = h.instr op operand ∧ bytes = op :: tail := by
  cases bytes with
  | nil => cases hd
  | cons op tail =>
    cases e : handlerOf op with
    | none => simp [decode, e] at hd
    | some h =>
      rw [decode_cons e] at hd
      cases ht : takeOperand h.operandSize tail with
      | none => simp [ht] at hd
      | some pair =>
        obtain ⟨operand, rest'⟩ := pair
        simp only [ht, Except.ok.injEq, Prod.mk.injEq] at hd
        obtain ⟨rfl, rfl⟩ := hd
        exact ⟨op, tail, h, operand, e, ht, rfl, rfl⟩

/-! ### Which handler an instruction has -/

/-- The handler of an instruction. -/
def Instr.handler : Instr → Handler
  | .xor _ _ => .xor
  | .push _ => .push
  | .pop _ => .pop
  | .movAlMoffs _ => .movAlMoffs
  | .movAxMoffsObserved _ => .movAxMoffsObserved
  | .movR8Imm8 _ _ => .movR8Imm8
  | .movR16Imm16 _ _ => .movR16Imm16
  | .jmpRel8 _ => .jmpRel8
  | .hlt => .hlt
  | .clc => .clc
  | .cli => .cli
  | .sti => .sti
  | .cld => .cld
  | .std => .std

@[simp] theorem Handler.instr_handler (h : Handler) (op : Byte) (operand : Word) : (h.instr op operand).handler = h := by
  cases h <;> rfl

/-- A register's opcode in the row of a handler. -/
theorem handlerOf_push (r : Reg16) : handlerOf (0x50#8 + BitVec.ofNat 8 r.code) = some .push := by
  cases r <;> decide

theorem handlerOf_pop (r : Reg16) : handlerOf (0x58#8 + BitVec.ofNat 8 r.code) = some .pop := by
  cases r <;> decide

theorem handlerOf_movR8Imm8 (r : Reg8) : handlerOf (0xB0#8 + BitVec.ofNat 8 r.code) = some .movR8Imm8 := by
  cases r <;> decide

theorem handlerOf_movR16Imm16 (r : Reg16) : handlerOf (0xB8#8 + BitVec.ofNat 8 r.code) = some .movR16Imm16 := by
  cases r <;> decide

/-! ### Decoding what is encoded -/

/-- An XOR decodes with any pair byte, bit 2 set or not. -/
theorem decode_xor (p : Byte) (rest : List Byte) :
    decode (0x31#8 :: p :: rest) = .ok (.xor (pairDst p) (pairSrc p), rest) :=
  decode_of_takeOperand (h := .xor) (by decide) rfl (by rw [Handler.instr, lowByte_wordOfBytes])

theorem decode_encode (i : Instr) (rest : List Byte) : decode (encode i ++ rest) = .ok (i, rest) := by
  cases i with
  | xor dst src =>
    have h := decode_xor (pairByte dst src) rest
    rwa [pairDst_pairByte, pairSrc_pairByte] at h
  | push r => exact decode_of_takeOperand (handlerOf_push r) rfl (by rw [Handler.instr, Reg16.ofField_row_add rfl])
  | pop r => exact decode_of_takeOperand (handlerOf_pop r) rfl (by rw [Handler.instr, Reg16.ofField_row_add rfl])
  | movAlMoffs addr =>
    exact decode_of_takeOperand (h := .movAlMoffs) (by decide) rfl (by rw [Handler.instr, wordOfBytes_lowByte_highByte])
  | movAxMoffsObserved addr =>
    exact decode_of_takeOperand (h := .movAxMoffsObserved) (by decide) rfl
      (by rw [Handler.instr, wordOfBytes_lowByte_highByte])
  | movR8Imm8 r imm =>
    exact decode_of_takeOperand (handlerOf_movR8Imm8 r) rfl
      (by rw [Handler.instr, Reg8.ofField_row_add rfl, lowByte_wordOfBytes])
  | movR16Imm16 r imm =>
    exact decode_of_takeOperand (handlerOf_movR16Imm16 r) rfl
      (by rw [Handler.instr, Reg16.ofField_row_add rfl, wordOfBytes_lowByte_highByte])
  | jmpRel8 rel =>
    exact decode_of_takeOperand (h := .jmpRel8) (by decide) rfl (by rw [Handler.instr, lowByte_wordOfBytes])
  | _ => rfl

/-! ### Encoding what was decoded -/

/-- The opcode of a handler that takes one value. -/
theorem eq_of_takes_one {op n : Byte} (h : (op.toNat == n.toNat) = true) : n = op :=
  (BitVec.eq_of_toNat_eq (beq_iff_eq.mp h)).symm

/-- The opcode of a handler that takes a row of eight. -/
theorem eq_of_takes_row {op base : Byte} (hbase : base.toNat % 8 = 0)
    (h : decide (base.toNat ≤ op.toNat ∧ op.toNat ≤ base.toNat + 7) = true) :
    base + BitVec.ofNat 8 (registerField op).val = op := by
  obtain ⟨hlow, hhigh⟩ := of_decide_eq_true h
  exact row_add_registerField hbase hlow (by omega)

/-- The encoder writes the opcode and the operand that an instruction was read from, but for XOR's pair byte. -/
theorem encode_instr {op : Byte} {h : Handler} (e : handlerOf op = some h) (hx : h ≠ .xor) (operand : Word) :
    encode (h.instr op operand) = op :: operandBytes h.operandSize operand := by
  obtain ⟨htakes, -⟩ := handlerOf_some e
  cases h with
  | xor => exact absurd rfl hx
  | push => simp [Handler.instr, encode, operandBytes, Handler.operandSize, eq_of_takes_row (base := 0x50#8) rfl htakes]
  | pop => simp [Handler.instr, encode, operandBytes, Handler.operandSize, eq_of_takes_row (base := 0x58#8) rfl htakes]
  | movR8Imm8 => simp [Handler.instr, encode, operandBytes, Handler.operandSize, eq_of_takes_row (base := 0xB0#8) rfl htakes]
  | movR16Imm16 => simp [Handler.instr, encode, operandBytes, Handler.operandSize, eq_of_takes_row (base := 0xB8#8) rfl htakes]
  | movAlMoffs => obtain rfl := eq_of_takes_one (n := 0xA0#8) htakes; rfl
  | movAxMoffsObserved => obtain rfl := eq_of_takes_one (n := 0xA1#8) htakes; rfl
  | jmpRel8 => obtain rfl := eq_of_takes_one (n := 0xEB#8) htakes; rfl
  | hlt => obtain rfl := eq_of_takes_one (n := 0xF4#8) htakes; rfl
  | clc => obtain rfl := eq_of_takes_one (n := 0xF8#8) htakes; rfl
  | cli => obtain rfl := eq_of_takes_one (n := 0xFA#8) htakes; rfl
  | sti => obtain rfl := eq_of_takes_one (n := 0xFB#8) htakes; rfl
  | cld => obtain rfl := eq_of_takes_one (n := 0xFC#8) htakes; rfl
  | std => obtain rfl := eq_of_takes_one (n := 0xFD#8) htakes; rfl

/-- A list with an opcode in its first byte decodes or is cut short, and is no invalid opcode. -/
theorem decode_eq_invalidOpcode_iff (op : Byte) (rest : List Byte) :
    decode (op :: rest) = .error (.invalidOpcode op) ↔ handlerOf op = none := by
  cases e : handlerOf op with
  | none => simp [decode, e]
  | some h =>
    rw [decode_cons e]
    cases takeOperand h.operandSize rest <;> simp

/-! ### The statements -/

/-- Settles O4: one case per form, its field and its operand read back. -/
theorem decodeOfEncodeIsTheInstruction : Obligations.DecodeOfEncodeIsTheInstruction :=
  decode_encode

/-- Settles O5: the opcode and the operand are written back as they were read, but for XOR's pair byte, whose bit 2 decides. -/
theorem encodeOfDecodeIsTheBytes : Obligations.EncodeOfDecodeIsTheBytes := by
  intro bytes rest i hd
  obtain ⟨op, tail, h, operand, e, ht, rfl, rfl⟩ := decode_ok hd
  obtain rfl := takeOperand_some ht
  by_cases hx : h = .xor
  · subst hx
    obtain rfl := eq_of_takes_one (n := 0x31#8) (handlerOf_some e).1
    have hencode : encode (Handler.xor.instr 0x31#8 operand) = [0x31#8, lowByte operand &&& 0xFB#8] :=
      congrArg (fun p => [0x31#8, p]) (pairByte_pair (lowByte operand))
    cases hbit : (lowByte operand).getLsbD 2 with
    | true => exact .inr ⟨lowByte operand, rfl, hencode, hbit⟩
    | false =>
      left
      rw [hencode, clear_bit2_eq_self hbit]
      rfl
  · left
    rw [encode_instr e hx]
    rfl

/-- Settles O2: the decoder gives that rejection where the table has no handler, which is outside the named rows. -/
theorem decoderRejectsExactlyTheUnnamedOpcodes : Obligations.DecoderRejectsExactlyTheUnnamedOpcodes :=
  fun op rest => (decode_eq_invalidOpcode_iff op rest).trans (handlerOf_eq_none_iff op)

/-- Settles O3: XOR by its pair byte; each other form is an encoding, whose decoding is known. -/
theorem decoderReadsEveryFieldOfEveryForm : Obligations.DecoderReadsEveryFieldOfEveryForm := by
  intro rest
  refine ⟨fun p => ⟨_, _, decode_xor p rest, pairDst_code p, pairSrc_val_cases p⟩, fun k hk => ?_, fun k hk => ?_,
    fun lo hi => ⟨_, wordOfBytes_toNat lo hi, ?_, ?_⟩, fun k hk imm => ?_, fun k hk lo hi => ?_,
    fun d => decode_encode (.jmpRel8 d) rest, decode_encode .hlt rest, decode_encode .clc rest, decode_encode .cli rest,
    decode_encode .sti rest, decode_encode .cld rest, decode_encode .std rest⟩
  · obtain ⟨r, -, rfl⟩ := Reg16.exists_ofCode? hk
    exact ⟨r, rfl, by simpa [encode, BitVec.ofNat_add] using decode_encode (.push r) rest⟩
  · obtain ⟨r, -, rfl⟩ := Reg16.exists_ofCode? hk
    exact ⟨r, rfl, by simpa [encode, BitVec.ofNat_add] using decode_encode (.pop r) rest⟩
  · simpa [encode] using decode_encode (.movAlMoffs (wordOfBytes lo hi)) rest
  · simpa [encode] using decode_encode (.movAxMoffsObserved (wordOfBytes lo hi)) rest
  · obtain ⟨r, -, rfl⟩ := Reg8.exists_ofCode? hk
    exact ⟨r, rfl, by simpa [encode, BitVec.ofNat_add] using decode_encode (.movR8Imm8 r imm) rest⟩
  · obtain ⟨r, -, rfl⟩ := Reg16.exists_ofCode? hk
    exact ⟨r, _, rfl, wordOfBytes_toNat lo hi,
      by simpa [encode, BitVec.ofNat_add] using decode_encode (.movR16Imm16 r (wordOfBytes lo hi)) rest⟩

/-- Settles O1: each word is computed. -/
theorem writtenOutWordsDecode : Obligations.WrittenOutWordsDecode :=
  ⟨rfl, rfl, rfl, rfl, rfl, rfl, rfl, rfl, rfl, rfl, rfl⟩

end Sys2Proof
end

section
/-! PROOFS. 40_sequencer.md R120 to R128: the instruction a cycle fetches, and the ways a step ends. -/

namespace Sys2Proof.Machine

open Sys2Proof

/-! ### The instruction at IP -/

@[simp] theorem State.beginCycle_ip (s : State) : s.beginCycle.ip = s.ip + 1#16 := by
  rw [State.beginCycle_eq]

theorem decode_unique {bytes rest rest' : List Byte} {i j : Instr} (hi : decode bytes = .ok (i, rest))
    (hj : decode bytes = .ok (j, rest')) : i = j :=
  (Prod.mk.inj (Except.ok.inj (hi.symm.trans hj))).1

/-- The opcode number names the byte at IP. -/
theorem State.byteAt_ip_of_opcode {s : State} {n : Nat} (h : s.opcode = n) : s.byteAt s.ip.toNat = BitVec.ofNat 8 n := by
  rw [← h, State.opcode, BitVec.ofNat_toNat, BitVec.setWidth_eq]

/-- The bytes a cycle reads: the opcode, the operand's first byte, and a third one. -/
theorem fetchWindow_of_opcode {s : State} {n : Nat} (h : s.opcode = n) :
    fetchWindow s = [BitVec.ofNat 8 n, s.operandByte, s.byteAt ((s.ip + 1#16).toNat + 1)] := by
  rw [fetchWindow_eq, State.byteAt_ip_of_opcode h, State.operandByte]

/-- The operand bytes after the opcode are always there. -/
theorem takeOperand_operandAt (size : OperandSize) (s : State) :
    ∃ rest, takeOperand size [s.byteAt s.ip.toNat, s.byteAt (s.ip.toNat + 1)] = some (operandAt size s, rest) := by
  cases size <;> exact ⟨_, rfl⟩

/-- What a cycle dispatches is what the bytes at IP decode to. -/
theorem decode_fetchWindow {s : State} {h : Handler} (hh : handlerOf (s.byteAt s.ip.toNat) = some h) :
    ∃ rest, decode (fetchWindow s) =
      .ok (h.instr (s.byteAt s.ip.toNat) (operandAt h.operandSize s.beginCycle), rest) := by
  obtain ⟨rest, ht⟩ := takeOperand_operandAt h.operandSize s.beginCycle
  exact ⟨rest, decode_of_takeOperand hh ht rfl⟩

/-- An instruction's handler takes the opcode the instruction was decoded from, and the opcode is a named one. -/
theorem opcode_of_decode {s : State} {i : Instr} {rest : List Byte} (hd : decode (fetchWindow s) = .ok (i, rest)) :
    i.handler.takes s.opcode = true ∧ NamedOpcode s.opcode := by
  obtain ⟨op, tail, h, operand, hh, -, rfl, hbytes⟩ := decode_ok hd
  obtain ⟨rfl, -⟩ := List.cons.inj hbytes
  rw [Handler.instr_handler]
  exact handlerOf_some hh

/-- Opcode 0x31 decodes to an XOR of the pair byte after it. -/
theorem decode_fetchWindow_xor {s : State} (h : s.opcode = 0x31) :
    ∃ rest, decode (fetchWindow s) = .ok (.xor (pairDst s.operandByte) (pairSrc s.operandByte), rest) :=
  ⟨_, (congrArg decode (fetchWindow_of_opcode h)).trans (decode_xor _ _)⟩

/-! ### The step -/

theorem step_stopped {s : State} (h : s.run ≠ .running) : step s = .next s := by
  obtain ⟨-, hs⟩ | ⟨hr, -⟩ | ⟨hr, -⟩ := step_cases s
  · exact hs
  · exact absurd hr h
  · exact absurd hr h

theorem step_invalidOpcode {s : State} (hr : s.run = .running) (h : ¬ NamedOpcode s.opcode) :
    step s = .next (s.beginCycle.endRun .halted (.invalidOpcode (s.byteAt s.ip.toNat) s.ip)) := by
  obtain ⟨hstopped, -⟩ | ⟨-, -, hs⟩ | ⟨-, k, hk, -⟩ := step_cases s
  · exact absurd hr hstopped
  · exact hs
  · exact absurd (handlerOf_some hk).2 h

/-- A running machine runs what the bytes at IP decode to. -/
theorem step_decoded {s : State} {i : Instr} {rest : List Byte} (hr : s.run = .running)
    (hd : decode (fetchWindow s) = .ok (i, rest)) : step s = exec i s.beginCycle := by
  obtain ⟨hstopped, -⟩ | ⟨-, hnone, -⟩ | ⟨-, h, hh, hs⟩ := step_cases s
  · exact absurd hr hstopped
  · exact absurd (opcode_of_decode hd).2 (handlerOf_none hnone)
  · obtain ⟨rest', hd'⟩ := decode_fetchWindow hh
    obtain rfl := decode_unique hd hd'
    exact hs

/-- A running machine runs the instruction whose encoding lies at IP. -/
theorem step_encoded {s : State} {i : Instr} {rest : List Byte} (hr : s.run = .running)
    (hw : fetchWindow s = encode i ++ rest) : step s = exec i s.beginCycle :=
  step_decoded hr ((congrArg decode hw).trans (decode_encode i rest))

/-- Everything a step can do: nothing, the invalid opcode handler, or the instruction at IP. -/
theorem step_next_cases {s t : State} (h : step s = .next t) :
    (s.run ≠ .running ∧ t = s) ∨
    (s.run = .running ∧ ¬ NamedOpcode s.opcode ∧
      t = s.beginCycle.endRun .halted (.invalidOpcode (s.byteAt s.ip.toNat) s.ip)) ∨
    (s.run = .running ∧ ∃ i rest, decode (fetchWindow s) = .ok (i, rest) ∧ exec i s.beginCycle = .next t) := by
  obtain ⟨hr, hs⟩ | ⟨hr, hnone, hs⟩ | ⟨hr, k, hk, hs⟩ := step_cases s
  · exact .inl ⟨hr, Host.Outcome.next.inj (h.symm.trans hs)⟩
  · exact .inr (.inl ⟨hr, handlerOf_none hnone, Host.Outcome.next.inj (h.symm.trans hs)⟩)
  · obtain ⟨rest, hd⟩ := decode_fetchWindow hk
    exact .inr (.inr ⟨hr, _, rest, hd, hs.symm.trans h⟩)

theorem step_next (s : State) : ∃ t, step s = .next t := by
  obtain ⟨-, hs⟩ | ⟨-, -, hs⟩ | ⟨-, h, -, hs⟩ := step_cases s
  · exact ⟨_, hs⟩
  · exact ⟨_, hs⟩
  · obtain ⟨t, ht⟩ := exec_next (h.instr (s.byteAt s.ip.toNat) (operandAt h.operandSize s.beginCycle)) s.beginCycle
    exact ⟨t, hs.trans ht⟩

/-! ### The end of a cycle -/

/-- What a handler does to `run` and `stop`: nothing, or HLT's halt, or XOR's error. -/
theorem exec_run_stop {i : Instr} {s t : State} (h : exec i s = .next t) :
    (i ≠ .hlt ∧ i.wellFormed = true ∧ t.run = s.run ∧ t.stop = s.stop) ∨
    (i = .hlt ∧ t.run = .halted ∧ t.stop = .hlt s.faultAddr) ∨
    (∃ dst src, i = .xor dst src ∧ 8 ≤ src.val ∧ t.run = .faulted ∧ t.stop = .invalidOperand src.val) := by
  obtain ⟨r, v, k, hwf, hhlt, rfl⟩ | ⟨rel, rfl, rfl⟩ | ⟨r, v, rfl, rfl⟩ | ⟨r, lo, hi, rfl, rfl⟩ |
    ⟨f, ⟨hf, rfl⟩ | ⟨hf, rfl⟩⟩ | ⟨rfl, rfl⟩ | ⟨dst, src, rfl, hsrc, rfl⟩ := exec_effects h
  · exact .inl ⟨hhlt, hwf, by simp, by simp⟩
  · exact .inl ⟨by simp, rfl, by simp, by simp⟩
  · exact .inl ⟨by simp, rfl, by simp, by simp⟩
  · exact .inl ⟨by simp, rfl, by simp, by simp⟩
  · obtain ⟨rfl, -⟩ | ⟨rfl, -⟩ | ⟨rfl, -⟩ := hf <;> exact .inl ⟨by simp, rfl, rfl, rfl⟩
  · obtain ⟨rfl, -⟩ | ⟨rfl, -⟩ := hf <;> exact .inl ⟨by simp, rfl, rfl, rfl⟩
  · exact .inr (.inl ⟨rfl, rfl, rfl⟩)
  · exact .inr (.inr ⟨dst, src, rfl, hsrc, rfl, rfl⟩)

/-- The four ways a cycle from a running state `s` to `t` ends, each with the opcodes that end it so. -/
inductive CycleEnd (s t : State) : Prop where
  | goesOn (run : t.run = .running) (stop : t.stop = s.stop) (named : NamedOpcode s.opcode) (notHlt : s.opcode ≠ 0xF4)
      (legal : s.opcode = 0x31 → 0xC0 ≤ s.operandByte.toNat)
  | hlt (run : t.run = .halted) (stop : t.stop = .hlt s.ip) (opcode : s.opcode = 0xF4)
  | invalidOpcode (run : t.run = .halted) (stop : t.stop = .invalidOpcode (s.byteAt s.ip.toNat) s.ip)
      (unnamed : ¬ NamedOpcode s.opcode)
  | invalidOperand (run : t.run = .faulted) (stop : t.stop = .invalidOperand ((s.operandByte.toNat + 0x40) / 8))
      (opcode : s.opcode = 0x31) (below : s.operandByte.toNat < 0xC0)

theorem step_cycleEnd {s t : State} (hr : s.run = .running) (h : step s = .next t) : CycleEnd s t := by
  obtain ⟨hstopped, -⟩ | ⟨-, hunnamed, rfl⟩ | ⟨-, i, rest, hd, hexec⟩ := step_next_cases h
  · exact absurd hr hstopped
  · exact .invalidOpcode rfl rfl hunnamed
  · obtain ⟨htakes, hnamed⟩ := opcode_of_decode hd
    obtain ⟨hhlt, hwf, hrun, hstop⟩ | ⟨rfl, hrun, hstop⟩ | ⟨dst, src, rfl, hsrc, hrun, hstop⟩ := exec_run_stop hexec
    · refine .goesOn (hrun.trans hr) hstop hnamed (fun hop => ?_) (fun hop => ?_)
      · have hd' : decode (fetchWindow s) = .ok (.hlt, _) :=
          (congrArg decode (fetchWindow_of_opcode hop)).trans (decode_encode .hlt _)
        exact hhlt (decode_unique hd hd')
      · obtain ⟨rest', hd'⟩ := decode_fetchWindow_xor hop
        obtain rfl := decode_unique hd hd'
        have hlegal := of_decide_eq_true hwf
        have := pairSrc_illegal_iff s.operandByte
        omega
    · exact .hlt hrun (hstop.trans (by rw [State.beginCycle_faultAddr])) (beq_iff_eq.mp htakes)
    · have hop : s.opcode = 0x31 := beq_iff_eq.mp htakes
      obtain ⟨rest', hd'⟩ := decode_fetchWindow_xor hop
      obtain ⟨-, rfl⟩ := Instr.xor.inj (decode_unique hd hd')
      have hbelow := (pairSrc_illegal_iff s.operandByte).mp hsrc
      exact .invalidOperand hrun (by rw [hstop, pairSrc_illegal hbelow]) hop hbelow

/-! ### The statements -/

/-- Settles O6: the step by what the bytes decode to, the state and the indices by what steps 1 and 2 write. -/
theorem stepRunsTheDecodedInstruction : Obligations.StepRunsTheDecodedInstruction :=
  fun s _ _ hr hd => ⟨step_decoded hr hd, s.beginCycle_eq, fetchWindow_eq s⟩

/-- Settles O7: the invalid opcode handler's state, and the report of a machine that was running and has halted. -/
theorem invalidOpcodeHaltsAndRecordsItself : Obligations.InvalidOpcodeHaltsAndRecordsItself := by
  intro s hr hunnamed
  have hs := step_invalidOpcode hr hunnamed
  refine ⟨?_, ?_⟩
  · rw [hs, State.beginCycle_eq]; rfl
  · rw [stepReport_next hs, hr]; rfl

/-- The report of a machine that was not running. -/
theorem reportOf_stopped {before : RunState} (h : before ≠ .running) (t : State) : reportOf before t = .notRunning := by
  cases before with
  | running => exact absurd rfl h
  | halted => rfl
  | faulted => rfl

/-- Settles O8. -/
theorem stoppedMachineNeverMoves : Obligations.StoppedMachineNeverMoves := by
  intro s h
  have hs := step_stopped h
  exact ⟨hs, by rw [stepReport_next hs, reportOf_stopped h]⟩

/-- Settles O9: a stopped machine, or the ways a cycle ends. -/
theorem stepHasOneOfFourOutcomes : Obligations.StepHasOneOfFourOutcomes := by
  intro s
  obtain ⟨t, hs⟩ := step_next s
  refine ⟨t, hs, ?_⟩
  by_cases hr : s.run = .running
  · have hreport : stepReport s = some (reportOf .running t) := by rw [stepReport_next hs, hr]
    cases step_cycleEnd hr hs with
    | goesOn run stop => exact .inr (.inl ⟨hr, run, stop, by simp [hreport, reportOf, run]⟩)
    | hlt run stop => exact .inr (.inr (.inl ⟨hr, run, by simp [hreport, reportOf, run], .inl stop⟩))
    | invalidOpcode run stop => exact .inr (.inr (.inl ⟨hr, run, by simp [hreport, reportOf, run], .inr stop⟩))
    | invalidOperand run stop opcode below =>
      exact .inr (.inr (.inr ⟨hr, run, by simp [hreport, reportOf, run], _, stop, by omega, by omega⟩))
  · obtain ⟨hstay, hreport⟩ := stoppedMachineNeverMoves s hr
    exact .inl ⟨hr, Host.Outcome.next.inj (hs.symm.trans hstay), hreport⟩

/-- Settles O10: each way a cycle ends has its own opcodes. -/
theorem machineStopsExactlyAtTheListedEvents : Obligations.MachineStopsExactlyAtTheListedEvents := by
  intro s hr
  obtain ⟨t, hs⟩ := step_next s
  refine ⟨t, hs, ?_⟩
  cases step_cycleEnd hr hs with
  | goesOn run stop named notHlt legal => simp only [run, reduceCtorEq, false_iff]; omega
  | hlt run stop opcode => simp [run, opcode]
  | invalidOpcode run stop unnamed => simp only [run, reduceCtorEq, true_iff, false_iff]; omega
  | invalidOperand run stop opcode below => simp [run, opcode, below]

/-- Settles O21: the pair byte's source index is above 7, so XOR raises before it writes. -/
theorem pairByteBelowC0StopsTheMachine : Obligations.PairByteBelowC0StopsTheMachine := by
  intro s hr hop hbelow
  obtain ⟨rest, hd⟩ := decode_fetchWindow_xor hop
  have hs : step s = .next (s.beginCycle.endRun .faulted (.invalidOperand (pairSrc s.operandByte).val)) :=
    (step_decoded hr hd).trans (execXor_illegal ((pairSrc_illegal_iff _).mpr hbelow) _ _)
  rw [pairSrc_illegal hbelow] at hs
  refine ⟨?_, ?_⟩
  · rw [hs, State.beginCycle_eq]; rfl
  · rw [stepReport_next hs, hr]; rfl

/-- Settles O38: no way a cycle ends writes that record. -/
theorem noStepRaisesOutOfBounds : Obligations.NoStepRaisesOutOfBounds := by
  intro s t a n hs ht
  by_cases hr : s.run = .running
  · cases step_cycleEnd hr hs with
    | goesOn run stop => exact stop.symm.trans ht
    | hlt run stop => cases stop.symm.trans ht
    | invalidOpcode run stop => cases stop.symm.trans ht
    | invalidOperand run stop => cases stop.symm.trans ht
  · obtain rfl := Host.Outcome.next.inj ((step_stopped hr).symm.trans hs)
    exact ht

end Sys2Proof.Machine
end

section
/-! PROOFS. Two states that differ in what no step reads take the same step: 20_memory.md R62 for the indices above 0x10000, 10_state.md
R34, R35 and R39 for FLAGS and the segment placeholders. -/

namespace Sys2Proof.Machine

open Sys2Proof

/-! ### Another memory -/

/-- From `s` to `t`, and from another memory `m` to `m'`: the low indices end equal, and the high ones, above every address, keep
what each memory held. -/
def SameLowStep (s t : State) (m m' : Memory) : Prop :=
  (∀ a, a ≤ 0x10000 → m'.read a = t.byteAt a) ∧
  ∀ a, 0x10000 < a → m'.read a = m.read a ∧ t.byteAt a = s.byteAt a

section

variable {s t : State} {m m' : Memory}

theorem SameLowStep.of_mem_eq (hm : ∀ a, a ≤ 0x10000 → m.read a = s.byteAt a) (ht : t.mem = s.mem) : SameLowStep s t m m := by
  have hbyte : ∀ a, t.byteAt a = s.byteAt a := fun a => congrArg (Memory.read a) ht
  exact ⟨fun a ha => (hm a ha).trans (hbyte a).symm, fun a _ => ⟨rfl, hbyte a⟩⟩

/-- The same byte stored at the same low index in both. -/
theorem SameLowStep.write (h : SameLowStep s t m m') {a : Nat} (ha : a ≤ 0x10000) (v : Byte) :
    SameLowStep s (t.setMem (t.mem.write a v)) m (m'.write a v) := by
  obtain ⟨hlow, hhigh⟩ := h
  refine ⟨fun b hb => ?_, fun b hb => ?_⟩
  · rw [State.setMem_byteAt, Memory.read_write, Memory.read_write, hlow b hb]; rfl
  · have hne : b ≠ a := by omega
    rw [State.setMem_byteAt, Memory.read_write, Memory.read_write, if_neg hne, if_neg hne]
    exact hhigh b hb

end

theorem State.setMem_setReg16 (s : State) (m : Memory) (r : Reg16) (v : Word) :
    (s.setMem m).setReg16 r v = (s.setReg16 r v).setMem m := by
  cases r <;> rfl

theorem State.setMem_setReg8 (s : State) (m : Memory) (r : Reg8) (v : Byte) :
    (s.setMem m).setReg8 r v = (s.setReg8 r v).setMem m := by
  simp only [State.setReg8, State.setMem_setReg16, State.setMem_reg16]

/-- The load of one byte reads a low index and stores nothing. -/
theorem loadAl_setMem {addr : Word} {s t : State} {m : Memory} (hm : ∀ a, a ≤ 0x10000 → m.read a = s.byteAt a)
    (h : loadAl addr s = .next t) : loadAl addr (s.setMem m) = .next (t.setMem m) ∧ SameLowStep s t m m := by
  obtain rfl := Host.Outcome.next.inj ((loadAl_eq addr s).symm.trans h)
  refine ⟨(loadAl_eq addr _).trans ?_, .of_mem_eq hm (by simp)⟩
  rw [State.setMem_byteAt, hm _ (by simp only [directAddress]; omega), State.setMem_setReg8]
  rfl

/-- Every handler reads low indices alone, and PUSH alone stores, at two low indices. -/
theorem exec_setMem {i : Instr} {s t : State} {m : Memory} (hm : ∀ a, a ≤ 0x10000 → m.read a = s.byteAt a)
    (h : exec i s = .next t) : ∃ m', exec i (s.setMem m) = .next (t.setMem m') ∧ SameLowStep s t m m' := by
  cases i with
  | xor dst src =>
    by_cases hs : 8 ≤ src.val
    · obtain rfl := Host.Outcome.next.inj ((execXor_illegal hs dst s).symm.trans h)
      exact ⟨m, execXor_illegal hs dst _, .of_mem_eq hm rfl⟩
    · obtain ⟨r, hr, -⟩ := Reg16.exists_ofCode? (by omega : src.val < 8)
      obtain rfl := Host.Outcome.next.inj ((execXor_legal hr dst s).symm.trans h)
      refine ⟨m, (execXor_legal hr dst _).trans ?_, .of_mem_eq hm (by simp)⟩
      simp only [State.setMem_reg16, State.setMem_setReg16]
      rfl
  | push r =>
    obtain rfl := Host.Outcome.next.inj ((execPush_eq r s).symm.trans h)
    have hstart : SameLowStep s s.lowerSp m m := .of_mem_eq hm rfl
    refine ⟨_, execPush_eq r (s.setMem m), ?_⟩
    exact (hstart.write (by simp only [stackAddress]; omega) _).write (by simp only [stackAddress]; omega) _
  | pop r =>
    obtain rfl := Host.Outcome.next.inj ((execPop_eq r s).symm.trans h)
    refine ⟨m, (execPop_eq r _).trans ?_, .of_mem_eq hm (by simp)⟩
    have hlow : m.read s.sp.toNat = s.byteAt s.sp.toNat := hm _ (by omega)
    have hhigh : m.read (s.sp.toNat + 1) = s.byteAt (s.sp.toNat + 1) := hm _ (by omega)
    simp only [stackAddress, State.setMem_byteAt, State.setMem_sp, hlow, hhigh, State.setMem_setReg16]
    rfl
  | movAlMoffs addr => exact ⟨m, loadAl_setMem hm h⟩
  | movAxMoffsObserved addr => exact ⟨m, loadAl_setMem hm h⟩
  | movR8Imm8 r imm =>
    obtain rfl := Host.Outcome.next.inj h
    exact ⟨m, congrArg (fun u : State => Host.Outcome.next (u.advanceIp 1)) (s.setMem_setReg8 m r imm), .of_mem_eq hm (by simp)⟩
  | movR16Imm16 r imm =>
    obtain rfl := Host.Outcome.next.inj h
    exact ⟨m, congrArg (fun u : State => Host.Outcome.next (u.advanceIp 2)) (s.setMem_setReg16 m r imm), .of_mem_eq hm (by simp)⟩
  | _ =>
    obtain rfl := Host.Outcome.next.inj h
    exact ⟨m, rfl, .of_mem_eq hm rfl⟩

/-- The bytes a cycle reads lie at low indices. -/
theorem fetchWindow_setMem {s : State} {m : Memory} (hm : ∀ a, a ≤ 0x10000 → m.read a = s.byteAt a) :
    fetchWindow (s.setMem m) = fetchWindow s := by
  rw [fetchWindow_eq, fetchWindow_eq]
  simp only [State.setMem_byteAt, State.setMem_ip]
  rw [hm _ (by omega), hm _ (by omega), hm _ (by omega)]

/-! ### Other flags and segment placeholders -/

/-- `s` with other values in FLAGS and the segment placeholders. -/
def State.withFlagsAndSegments (s : State) (flags es cs ss ds : Word) : State :=
  { s with flags := flags, es := es, cs := cs, ss := ss, ds := ds }

/-- From `s` to `t`, `f` answers the same whatever FLAGS and the placeholders hold: it keeps the placeholders, keeps the bits of FLAGS
in one mask and sets those in another. -/
def FlagsMasked (f : State → Result) (s t : State) : Prop :=
  ∃ kept set : Word, ∀ flags es cs ss ds : Word,
    f (s.withFlagsAndSegments flags es cs ss ds) =
      .next (t.withFlagsAndSegments ((flags &&& kept) ||| set) es cs ss ds)

section

variable (s : State) (flags es cs ss ds : Word)

@[simp] theorem State.withFlagsAndSegments_reg16 (r : Reg16) :
    (s.withFlagsAndSegments flags es cs ss ds).reg16 r = s.reg16 r := by
  cases r <;> rfl

theorem State.withFlagsAndSegments_setReg16 (r : Reg16) (v : Word) :
    (s.withFlagsAndSegments flags es cs ss ds).setReg16 r v =
      (s.setReg16 r v).withFlagsAndSegments flags es cs ss ds := by
  cases r <;> rfl

theorem State.withFlagsAndSegments_setReg8 (r : Reg8) (v : Byte) :
    (s.withFlagsAndSegments flags es cs ss ds).setReg8 r v =
      (s.setReg8 r v).withFlagsAndSegments flags es cs ss ds := by
  simp only [State.setReg8, State.withFlagsAndSegments_setReg16, State.withFlagsAndSegments_reg16]

end

/-- What keeps FLAGS keeps every bit in a mask and sets none. -/
theorem FlagsMasked.of_kept {f : State → Result} {s t : State}
    (h : ∀ flags es cs ss ds : Word,
      f (s.withFlagsAndSegments flags es cs ss ds) = .next (t.withFlagsAndSegments flags es cs ss ds)) :
    FlagsMasked f s t :=
  ⟨BitVec.allOnes 16, 0#16, fun flags es cs ss ds => by rw [BitVec.and_allOnes, BitVec.or_zero, h]⟩

theorem flagsMasked_clearFlag (s : State) (f : Flag) : FlagsMasked (fun u => .next (u.clearFlag f)) s (s.clearFlag f) :=
  ⟨~~~f.mask, 0#16, fun flags es cs ss ds => by rw [BitVec.or_zero]; rfl⟩

theorem flagsMasked_setFlag (s : State) (f : Flag) : FlagsMasked (fun u => .next (u.setFlag f)) s (s.setFlag f) :=
  ⟨BitVec.allOnes 16, f.mask, fun flags es cs ss ds => by rw [BitVec.and_allOnes]; rfl⟩

theorem loadAl_flagsMasked {addr : Word} {s t : State} (h : loadAl addr s = .next t) : FlagsMasked (loadAl addr) s t := by
  obtain rfl := Host.Outcome.next.inj ((loadAl_eq addr s).symm.trans h)
  refine .of_kept fun flags es cs ss ds => (loadAl_eq addr _).trans ?_
  rw [State.withFlagsAndSegments_setReg8]
  rfl

/-- No handler reads FLAGS or a placeholder, and only the flag instructions write FLAGS. -/
theorem exec_flagsMasked {i : Instr} {s t : State} (h : exec i s = .next t) : FlagsMasked (exec i) s t := by
  cases i with
  | xor dst src =>
    refine .of_kept fun flags es cs ss ds => ?_
    by_cases hs : 8 ≤ src.val
    · obtain rfl := Host.Outcome.next.inj ((execXor_illegal hs dst s).symm.trans h)
      exact execXor_illegal hs dst _
    · obtain ⟨r, hr, -⟩ := Reg16.exists_ofCode? (by omega : src.val < 8)
      obtain rfl := Host.Outcome.next.inj ((execXor_legal hr dst s).symm.trans h)
      refine (execXor_legal hr dst _).trans ?_
      rw [State.withFlagsAndSegments_reg16, State.withFlagsAndSegments_reg16, State.withFlagsAndSegments_setReg16]
      rfl
  | push r =>
    obtain rfl := Host.Outcome.next.inj ((execPush_eq r s).symm.trans h)
    refine .of_kept fun flags es cs ss ds => (execPush_eq r _).trans ?_
    have hreg : (s.withFlagsAndSegments flags es cs ss ds).lowerSp.reg16 r = s.lowerSp.reg16 r :=
      s.lowerSp.withFlagsAndSegments_reg16 flags es cs ss ds r
    rw [hreg]
    rfl
  | pop r =>
    obtain rfl := Host.Outcome.next.inj ((execPop_eq r s).symm.trans h)
    refine .of_kept fun flags es cs ss ds => (execPop_eq r _).trans ?_
    rw [State.withFlagsAndSegments_setReg16]
    rfl
  | movAlMoffs addr => exact loadAl_flagsMasked h
  | movAxMoffsObserved addr => exact loadAl_flagsMasked h
  | movR8Imm8 r imm =>
    obtain rfl := Host.Outcome.next.inj h
    exact .of_kept fun flags es cs ss ds => congrArg (fun u : State => Host.Outcome.next (u.advanceIp 1))
      (s.withFlagsAndSegments_setReg8 flags es cs ss ds r imm)
  | movR16Imm16 r imm =>
    obtain rfl := Host.Outcome.next.inj h
    exact .of_kept fun flags es cs ss ds => congrArg (fun u : State => Host.Outcome.next (u.advanceIp 2))
      (s.withFlagsAndSegments_setReg16 flags es cs ss ds r imm)
  | jmpRel8 rel =>
    obtain rfl := Host.Outcome.next.inj h
    exact .of_kept fun _ _ _ _ _ => rfl
  | hlt =>
    obtain rfl := Host.Outcome.next.inj h
    exact .of_kept fun _ _ _ _ _ => rfl
  | clc =>
    obtain rfl := Host.Outcome.next.inj h
    exact flagsMasked_clearFlag s .carry
  | cli =>
    obtain rfl := Host.Outcome.next.inj h
    exact flagsMasked_clearFlag s .interruptEnable
  | cld =>
    obtain rfl := Host.Outcome.next.inj h
    exact flagsMasked_clearFlag s .direction
  | sti =>
    obtain rfl := Host.Outcome.next.inj h
    exact flagsMasked_setFlag s .interruptEnable
  | std =>
    obtain rfl := Host.Outcome.next.inj h
    exact flagsMasked_setFlag s .direction

/-- No step reads FLAGS or a placeholder: each of its three cases is the same one with other values in them. -/
theorem step_flagsMasked {s t : State} (h : step s = .next t) : FlagsMasked step s t := by
  obtain ⟨hr, rfl⟩ | ⟨hr, hunnamed, rfl⟩ | ⟨hr, i, rest, hd, hexec⟩ := step_next_cases h
  · exact .of_kept fun _ _ _ _ _ => step_stopped hr
  · exact .of_kept fun flags es cs ss ds =>
      step_invalidOpcode (s := s.withFlagsAndSegments flags es cs ss ds) hr hunnamed
  · obtain ⟨kept, set, hmasks⟩ := exec_flagsMasked hexec
    exact ⟨kept, set, fun flags es cs ss ds =>
      (step_decoded (s := s.withFlagsAndSegments flags es cs ss ds) hr hd).trans (hmasks flags es cs ss ds)⟩

/-! ### The statements -/

/-- Settles O39: the step in the other memory takes the same one of its three cases, and the handler is simulated. -/
theorem highMemoryIsOutOfReach : Obligations.HighMemoryIsOutOfReach := by
  intro s t m hm h
  obtain ⟨hr, rfl⟩ | ⟨hr, hunnamed, rfl⟩ | ⟨hr, i, rest, hd, hexec⟩ := step_next_cases h
  · exact ⟨m, step_stopped hr, SameLowStep.of_mem_eq hm rfl⟩
  · have hop : (s.setMem m).byteAt s.ip.toNat = s.byteAt s.ip.toNat := hm _ (by omega)
    have hunnamed' : ¬ NamedOpcode (s.setMem m).opcode := by rwa [State.opcode, State.setMem_ip, hop]
    refine ⟨m, (step_invalidOpcode (s := s.setMem m) hr hunnamed').trans ?_, SameLowStep.of_mem_eq hm rfl⟩
    rw [State.setMem_ip, hop]
    rfl
  · obtain ⟨m', hexec', hlow⟩ := exec_setMem (s := s.beginCycle) hm hexec
    have hd' := (congrArg decode (fetchWindow_setMem hm)).trans hd
    exact ⟨m', (step_decoded (s := s.setMem m) hr hd').trans hexec', hlow⟩

/-- Settles O43: the masks of the step; what it does to its own FLAGS and placeholders is the case of the values they hold. -/
theorem flagsAndSegmentsNeverSteerAStep : Obligations.FlagsAndSegmentsNeverSteerAStep := by
  intro s t h
  obtain ⟨kept, set, hstep⟩ := step_flagsMasked h
  have hown : t = t.withFlagsAndSegments ((s.flags &&& kept) ||| set) s.es s.cs s.ss s.ds :=
    Host.Outcome.next.inj (h.symm.trans (hstep s.flags s.es s.cs s.ss s.ds))
  refine ⟨fun r => ?_, kept, set, congrArg State.flags hown, hstep⟩
  rw [hown]
  cases r <;> rfl

end Sys2Proof.Machine
end

section
/-! PROOFS. What a step can change: memory (20_memory.md R70), FLAGS (10_state.md R38), IP (40_sequencer.md R129), and the invariant of a
run from boot that every step keeps. -/

namespace Sys2Proof.Machine

open Sys2Proof

/-! ### Memory and FLAGS under a handler -/

/-- A handler that changes a byte is PUSH, at one of the two indices from the lowered SP. -/
theorem exec_changes_byte {i : Instr} {s t : State} {a : Nat} (h : exec i s = .next t) (ha : t.byteAt a ≠ s.byteAt a) :
    (∃ r, i = .push r) ∧ (a = stackAddress s.lowerSp ∨ a = stackAddress s.lowerSp + 1) := by
  obtain ⟨r, v, k, -, -, rfl⟩ | ⟨rel, -, rfl⟩ | ⟨r, v, -, rfl⟩ | ⟨r, lo, hi, hpush, rfl⟩ |
    ⟨f, ⟨-, rfl⟩ | ⟨-, rfl⟩⟩ | ⟨-, rfl⟩ | ⟨dst, src, -, -, rfl⟩ := exec_effects h
  case inr.inr.inr.inl =>
    refine ⟨⟨r, hpush⟩, ?_⟩
    by_contra hne
    obtain ⟨hne1, hne2⟩ := not_or.mp hne
    rw [State.setMem_byteAt, Memory.read_write, Memory.read_write, if_neg hne2, if_neg hne1] at ha
    exact ha rfl
  all_goals exact absurd (by simp) ha

/-- A handler that changes a bit of FLAGS is a flag instruction, at the bit of its flag. -/
theorem exec_changes_flag {i : Instr} {s t : State} {k : Nat} (h : exec i s = .next t)
    (hk : t.flags.getLsbD k ≠ s.flags.getLsbD k) :
    (k = 0 ∧ i = .clc) ∨ (k = 9 ∧ (i = .cli ∨ i = .sti)) ∨ (k = 10 ∧ (i = .cld ∨ i = .std)) := by
  obtain ⟨r, v, j, -, -, rfl⟩ | ⟨rel, -, rfl⟩ | ⟨r, v, -, rfl⟩ | ⟨r, lo, hi, -, rfl⟩ |
    ⟨f, ⟨hf, rfl⟩ | ⟨hf, rfl⟩⟩ | ⟨-, rfl⟩ | ⟨dst, src, -, -, rfl⟩ := exec_effects h
  case inr.inr.inr.inr.inl.inl =>
    have hpos : k = f.pos := by_contra fun hne => hk (s.getLsbD_clearFlag_of_ne hne)
    obtain ⟨rfl, rfl⟩ | ⟨rfl, rfl⟩ | ⟨rfl, rfl⟩ := hf <;> simp [hpos, Flag.pos]
  case inr.inr.inr.inr.inl.inr =>
    have hpos : k = f.pos := by_contra fun hne => hk (s.getLsbD_setFlag_of_ne hne)
    obtain ⟨rfl, rfl⟩ | ⟨rfl, rfl⟩ := hf <;> simp [hpos, Flag.pos]
  all_goals exact absurd (by simp) hk

/-! ### IP after a handler -/

/-- What an instruction adds to IP beyond its length: JMP's displacement. -/
def jumpOffset : Instr → Int
  | .jmpRel8 d => d.toInt
  | _ => 0

theorem State.advanceIp_ip_toNat (s : State) (k : Int) :
    ((s.advanceIp k).ip.toNat : Int) = ((s.ip.toNat : Int) + k) % 0x10000 := by
  rw [State.advanceIp_ip, BitVec.toNat_ofInt]
  omega

/-- A handler that raises no error leaves IP past its instruction, whose opcode byte it starts after, and JMP at its target. -/
theorem exec_ip {i : Instr} {s t : State} (hwf : i.wellFormed = true) (h : exec i s = .next t) :
    (t.ip.toNat : Int) = ((s.ip.toNat : Int) + (cycleLength i - 1 + jumpOffset i)) % 0x10000 := by
  have hstay : (s.ip.toNat : Int) = ((s.ip.toNat : Int) + 0) % 0x10000 := by omega
  cases i with
  | xor dst src =>
    obtain ⟨r, hr, -⟩ := Reg16.exists_ofCode? (of_decide_eq_true hwf)
    obtain rfl := Host.Outcome.next.inj ((execXor_legal hr dst s).symm.trans h)
    rw [State.advanceIp_ip_toNat, State.setReg16_ip]; rfl
  | push r =>
    obtain rfl := Host.Outcome.next.inj ((execPush_eq r s).symm.trans h)
    exact hstay
  | pop r =>
    obtain rfl := Host.Outcome.next.inj ((execPop_eq r s).symm.trans h)
    rw [State.raiseSp_ip, State.setReg16_ip]; exact hstay
  | movAlMoffs addr =>
    obtain rfl := Host.Outcome.next.inj ((loadAl_eq addr s).symm.trans h)
    rw [State.advanceIp_ip_toNat, State.setReg8_ip]; rfl
  | movAxMoffsObserved addr =>
    obtain rfl := Host.Outcome.next.inj ((loadAl_eq addr s).symm.trans h)
    rw [State.advanceIp_ip_toNat, State.setReg8_ip]; rfl
  | movR8Imm8 r imm =>
    obtain rfl := Host.Outcome.next.inj h
    rw [State.advanceIp_ip_toNat, State.setReg8_ip]; rfl
  | movR16Imm16 r imm =>
    obtain rfl := Host.Outcome.next.inj h
    rw [State.advanceIp_ip_toNat, State.setReg16_ip]; rfl
  | jmpRel8 rel =>
    obtain rfl := Host.Outcome.next.inj h
    rw [State.advanceIp_ip_toNat, sext16_eq_toInt, jumpOffset, cycleLength]
    omega
  | _ =>
    obtain rfl := Host.Outcome.next.inj h
    exact hstay

/-! ### The invariant of a run from boot -/

/-- The invariant, part by part. -/
theorem State.inv_iff (s : State) :
    s.inv = true ↔ s.mem.wf = true ∧ stopAgrees s.run s.stop = true ∧ s.flags &&& neverSetFlags = 0#16 ∧
      ∀ r, s.segReg r = 0#16 := by
  have hseg : (∀ r, s.segReg r = 0#16) ↔ s.es = 0#16 ∧ s.cs = 0#16 ∧ s.ss = 0#16 ∧ s.ds = 0#16 :=
    ⟨fun h => ⟨h .es, h .cs, h .ss, h .ds⟩, fun ⟨hes, hcs, hss, hds⟩ r => by cases r <;> assumption⟩
  simp only [State.inv, Bool.and_eq_true, beq_iff_eq, hseg, and_assoc]

/-- A handler keeps memory in canonical form: its only stores are PUSH's, inside the array. -/
theorem exec_keeps_wf {i : Instr} {s t : State} (h : exec i s = .next t) (hs : s.mem.wf = true) : t.mem.wf = true := by
  obtain ⟨r, v, k, -, -, rfl⟩ | ⟨rel, -, rfl⟩ | ⟨r, v, -, rfl⟩ | ⟨r, lo, hi, -, rfl⟩ |
    ⟨f, ⟨-, rfl⟩ | ⟨-, rfl⟩⟩ | ⟨-, rfl⟩ | ⟨dst, src, -, -, rfl⟩ := exec_effects h
  case inr.inr.inr.inl =>
    have hin : stackAddress s.lowerSp + 1 < Config.memSize := word_inside _
    exact Memory.wf_write _ hin (Memory.wf_write _ (by omega) hs)
  all_goals simpa using hs

/-- A handler sets no bit of FLAGS but IF and DF: clearing a flag sets none, and STI and STD set those two. -/
theorem exec_keeps_neverSetFlags {i : Instr} {s t : State} (h : exec i s = .next t)
    (hs : s.flags &&& neverSetFlags = 0#16) : t.flags &&& neverSetFlags = 0#16 := by
  obtain ⟨r, v, k, -, -, rfl⟩ | ⟨rel, -, rfl⟩ | ⟨r, v, -, rfl⟩ | ⟨r, lo, hi, -, rfl⟩ |
    ⟨f, ⟨-, rfl⟩ | ⟨hf, rfl⟩⟩ | ⟨-, rfl⟩ | ⟨dst, src, -, -, rfl⟩ := exec_effects h
  case inr.inr.inr.inr.inl.inl =>
    rw [State.clearFlag_flags, BitVec.and_assoc, BitVec.and_comm (~~~f.mask), ← BitVec.and_assoc, hs, BitVec.zero_and]
  case inr.inr.inr.inr.inl.inr =>
    have hmask : f.mask &&& neverSetFlags = 0#16 := by
      obtain ⟨-, rfl⟩ | ⟨-, rfl⟩ := hf <;> decide
    rw [State.setFlag_flags, BitVec.and_or_distrib_right, hs, hmask, BitVec.or_zero]
  all_goals simpa using hs

/-- After a cycle the run state and the stop record agree again. -/
theorem CycleEnd.stopAgrees {s t : State} (h : CycleEnd s t) (hr : s.run = .running)
    (hs : stopAgrees s.run s.stop = true) : stopAgrees t.run t.stop = true := by
  cases h with
  | goesOn run stop => rwa [run, stop, ← hr]
  | hlt run stop => rw [run, stop]; rfl
  | invalidOpcode run stop => rw [run, stop]; rfl
  | invalidOperand run stop => rw [run, stop]; rfl

/-- A step keeps each part of the invariant. -/
theorem step_keeps_inv {s t : State} (hs : s.inv = true) (h : step s = .next t) : t.inv = true := by
  rw [State.inv_iff] at hs ⊢
  obtain ⟨hwf, hstop, hflags, hseg⟩ := hs
  obtain ⟨hsame, -⟩ := flagsAndSegmentsNeverSteerAStep s t h
  have hseg' : ∀ r, t.segReg r = 0#16 := fun r => (hsame r).trans (hseg r)
  obtain ⟨-, rfl⟩ | ⟨hr, -, rfl⟩ | ⟨hr, i, rest, -, hexec⟩ := step_next_cases h
  · exact ⟨hwf, hstop, hflags, hseg⟩
  · exact ⟨hwf, (step_cycleEnd hr h).stopAgrees hr hstop, hflags, hseg'⟩
  · exact ⟨exec_keeps_wf hexec hwf, (step_cycleEnd hr h).stopAgrees hr hstop, exec_keeps_neverSetFlags hexec hflags, hseg'⟩

/-! ### The statements -/

/-- Settles O40: each part of the invariant is kept. -/
theorem everyStepKeepsTheBootInvariant : Obligations.EveryStepKeepsTheBootInvariant :=
  fun _ _ => step_keeps_inv

/-- Settles O41: the parts are computed. -/
theorem resetHasTheBootInvariant : Obligations.ResetHasTheBootInvariant := by
  unfold Obligations.ResetHasTheBootInvariant
  decide

/-- Settles O42: a launch differs from the reset state in `faultAddr`, which the invariant does not speak of, and in memory, where the
image lies inside the array. -/
theorem everyLaunchHasTheBootInvariant : Obligations.EveryLaunchHasTheBootInvariant := by
  intro image initMem fa t hwf hboot
  obtain ⟨-, hstop, hflags, hseg⟩ := (State.inv_iff _).mp resetHasTheBootInvariant
  unfold boot at hboot
  split at hboot
  · cases hboot
  · obtain rfl := Option.some.inj hboot
    refine (State.inv_iff _).mpr ⟨Memory.wf_writeBytes ?_ hwf, hstop, hflags, fun r => by cases r <;> rfl⟩
    have := List.length_take_le Config.imageSize image
    simp only [Config.loadAddr, Config.imageSize, Config.memSize] at this ⊢
    simp; omega

/-- Settles O18: a handler changes its flag's bit alone, and its opcode is the one it was decoded from. -/
theorem onlyFlagInstructionsWriteFlags : Obligations.OnlyFlagInstructionsWriteFlags := by
  intro s t k h hk
  obtain ⟨-, rfl⟩ | ⟨-, -, rfl⟩ | ⟨hr, i, rest, hd, hexec⟩ := step_next_cases h
  · exact absurd rfl hk
  · exact absurd rfl hk
  · obtain ⟨htakes, -⟩ := opcode_of_decode hd
    refine ⟨hr, ?_⟩
    obtain ⟨rfl, rfl⟩ | ⟨rfl, rfl | rfl⟩ | ⟨rfl, rfl | rfl⟩ := exec_changes_flag hexec hk <;>
      simp [beq_iff_eq.mp htakes]

/-- Settles O25: a handler that changes a byte is PUSH, and its opcode is in PUSH's row. -/
theorem onlyPushStoresToMemory : Obligations.OnlyPushStoresToMemory := by
  intro s t a h ha
  obtain ⟨-, rfl⟩ | ⟨-, -, rfl⟩ | ⟨hr, i, rest, hd, hexec⟩ := step_next_cases h
  · exact absurd rfl ha
  · exact absurd rfl ha
  · obtain ⟨htakes, -⟩ := opcode_of_decode hd
    obtain ⟨⟨r, rfl⟩, hindex⟩ := exec_changes_byte hexec ha
    obtain ⟨hlow, hhigh⟩ := of_decide_eq_true htakes
    exact ⟨hr, hlow, hhigh, hindex⟩

/-- Settles O12: the cycle's start puts IP past the opcode byte, and the handler puts it past the rest. -/
theorem ipAfterEveryCompletedCycle : Obligations.IpAfterEveryCompletedCycle := by
  refine ⟨fun s i rest hr hd hwf => ?_, fun s hr hunnamed => ?_⟩
  · obtain ⟨t, hexec⟩ := exec_next i s.beginCycle
    have hip := exec_ip hwf hexec
    have hbegin : s.beginCycle.ip.toNat = (s.ip.toNat + 1) % 0x10000 := by simp
    refine ⟨t, (step_decoded hr hd).trans hexec, ?_⟩
    show (t.ip.toNat : Int) = ((s.ip.toNat : Int) + cycleLength i + jumpOffset i) % 0x10000
    rw [hip]
    omega
  · exact ⟨_, step_invalidOpcode hr hunnamed, by simp⟩

end Sys2Proof.Machine
end

section
/-! PROOFS. What each handler answers, with its frame: 41_alu.md, 42_stack.md, 43_mov.md, 44_control.md and 45_flags.md, with the accesses of
10_state.md and 20_memory.md they are made of. -/

namespace Sys2Proof.Machine

open Sys2Proof

/-! ### Frames -/

@[simp] theorem State.advanceIp_reg8 (s : State) (k : Int) (q : Reg8) : (s.advanceIp k).reg8 q = s.reg8 q := by
  simp [State.reg8]

/-- What XOR and the moves do, a register write and an advance of IP, leaves all else as it was. -/
theorem State.setReg16_advanceIp_frame (s : State) (r : Reg16) (v : Word) (k : Int) :
    SameRegsBut [r] s ((s.setReg16 r v).advanceIp k) ∧ SameFlags s ((s.setReg16 r v).advanceIp k) ∧
      SameSegments s ((s.setReg16 r v).advanceIp k) ∧ SameSequencer s ((s.setReg16 r v).advanceIp k) ∧
      SameMemoryBut [] s ((s.setReg16 r v).advanceIp k) := by
  refine ⟨fun q hq => ?_, by simp [SameFlags], fun q => by simp, by simp [SameSequencer], fun a _ => by simp⟩
  rw [State.advanceIp_reg16, State.setReg16_reg16, if_neg (List.ne_of_not_mem_cons hq)]

/-! ### A word in memory -/

section

variable (m : Memory) (a : Nat) (lo hi : Byte)

theorem Memory.read_writeWord_low : ((m.write a lo).write (a + 1) hi).read a = lo := by
  rw [Memory.read_write, if_neg (by omega), Memory.read_write, if_pos rfl]

theorem Memory.read_writeWord_high : ((m.write a lo).write (a + 1) hi).read (a + 1) = hi := by
  rw [Memory.read_write, if_pos rfl]

theorem Memory.read_writeWord_outside {b : Nat} (hb : b ∉ [a, a + 1]) :
    ((m.write a lo).write (a + 1) hi).read b = m.read b := by
  obtain ⟨hne, hne'⟩ := not_or.mp (List.mem_pair.not.mp hb)
  rw [Memory.read_write, if_neg hne', Memory.read_write, if_neg hne]

end

/-! ### Whole cycles -/

/-- The cycle of an instruction that is its opcode alone. -/
theorem step_opcodeAlone {s : State} {i : Instr} {n : Nat} (hr : s.run = .running) (hop : s.opcode = n)
    (hi : encode i = [BitVec.ofNat 8 n]) : step s = exec i { s with faultAddr := s.ip, ip := s.ip + 1#16 } := by
  have hw : fetchWindow s = encode i ++ [s.operandByte, s.byteAt ((s.ip + 1#16).toNat + 1)] := by
    rw [hi, fetchWindow_of_opcode hop]; rfl
  rw [step_encoded hr hw, State.beginCycle_eq]

/-! ### The register file and FLAGS -/

/-- Settles O15: the named indices are computed; a register's own index names it, and no index above 7 names one. -/
theorem registerFileReadsByCanonicalIndex : Obligations.RegisterFileReadsByCanonicalIndex := by
  intro s
  refine ⟨rfl, rfl, rfl, rfl, rfl, rfl, rfl, rfl, fun r v => ⟨?_, ?_⟩, rfl, rfl, rfl, rfl, rfl, rfl, rfl, rfl,
    fun r b => ⟨?_, ?_⟩, fun code hcode v b => ⟨get16_illegal hcode s, ?_, ?_, ?_⟩⟩
  · simp [set16]
  · simp [get16]
  · simp [set8]
  · simp [get8]
  · simp [set16, Reg16.ofCode?_eq_none hcode]
  · simp [get8, Reg8.ofCode?_eq_none hcode]
  · simp [set8, Reg8.ofCode?_eq_none hcode]

/-- A reserved bit is no flag's. -/
theorem Flag.pos_ne_reserved (f : Flag) {k : Nat} (hk : k = 1 ∨ k = 3 ∨ k = 5 ∨ 12 ≤ k) : k ≠ f.pos := by
  cases f <;> simp only [Flag.pos] <;> omega

/-- Settles O50: a flag's position is the bit, and its mask that bit alone. -/
theorem namedFlagsStandAtTheirPositions : Obligations.NamedFlagsStandAtTheirPositions := by
  intro s
  refine ⟨fun f => ⟨f.pos, rfl, rfl, rfl, by cases f <;> rfl⟩, fun f k hk => ?_⟩
  exact ⟨s.getLsbD_setFlag_of_ne (f.pos_ne_reserved hk), s.getLsbD_clearFlag_of_ne (f.pos_ne_reserved hk)⟩

/-- Settles O45: each value is computed. -/
theorem resetHoldsTheSpecsValues : Obligations.ResetHoldsTheSpecsValues := by
  refine ⟨fun r => ?_, rfl, fun r => ?_, fun f => ?_, rfl, rfl, rfl⟩
  · cases r <;> rfl
  · cases r <;> rfl
  · cases f <;> decide

/-- Settles O17: a flag's handler is the one write; its cycle is that handler after the opcode fetch. -/
theorem flagInstructionsWriteOneBit : Obligations.FlagInstructionsWriteOneBit :=
  ⟨fun _ => ⟨rfl, rfl, rfl, rfl, rfl⟩, fun _ hr =>
    ⟨fun hop => step_opcodeAlone (i := .clc) hr hop rfl, fun hop => step_opcodeAlone (i := .cli) hr hop rfl,
      fun hop => step_opcodeAlone (i := .sti) hr hop rfl, fun hop => step_opcodeAlone (i := .cld) hr hop rfl,
      fun hop => step_opcodeAlone (i := .std) hr hop rfl⟩⟩

/-! ### XOR -/

/-- Settles O19: a legal source index names the source register, and the rest is one register write. -/
theorem xorWritesOnlyItsDestination : Obligations.XorWritesOnlyItsDestination := by
  intro dst src r s hcode
  have hsrc : Reg16.ofCode? src.val = some r := by rw [← hcode, Reg16.ofCode?_code]
  refine ⟨_, execXor_legal hsrc dst s, by simp, ?_, s.setReg16_advanceIp_frame ..⟩
  rw [State.advanceIp_one, State.setReg16_ip]

/-- Settles O20: the source read is the destination's own value. -/
theorem xorWithItselfLeavesZero : Obligations.XorWithItselfLeavesZero := by
  intro dst src s hcode
  obtain ⟨t, hexec, hdst, -⟩ := xorWritesOnlyItsDestination dst src dst.toReg16 s hcode.symm
  exact ⟨t, hexec, by rw [hdst, BitVec.xor_self]⟩

/-! ### Stack -/

/-- Settles O22: the word stored is read in the state with SP lowered, and memory is the only other thing written. -/
theorem pushStoresTheRegisterBelowSp : Obligations.PushStoresTheRegisterBelowSp := by
  intro r s
  have hreg : s.lowerSp.reg16 r = if r = .sp then s.sp - 2#16 else s.reg16 r := s.lowerSp_reg16 r
  refine ⟨_, execPush_eq r s, rfl, ?_, rfl, fun q hq => ?_, rfl, fun q => by simp, ⟨rfl, rfl, rfl⟩⟩
  · rintro a rfl
    rw [← hreg]
    exact ⟨rfl, Memory.read_writeWord_low .., Memory.read_writeWord_high ..,
      fun b hb => Memory.read_writeWord_outside _ _ _ _ hb⟩
  · rw [State.setMem_reg16, State.lowerSp_reg16, if_neg (List.ne_of_not_mem_cons hq)]

/-- Settles O23: the word is read before the register write, and SP is raised after it. -/
theorem popLoadsTheWordAtSp : Obligations.PopLoadsTheWordAtSp := by
  intro r s
  refine ⟨_, _, execPop_eq r s, rfl, fun hr => ⟨?_, ?_⟩, fun hr => ?_, by simp, fun q hq => ?_,
    by simp [SameFlags], fun q => by simp, by simp [SameSequencer], fun a _ => by simp⟩
  · rw [State.raiseSp_reg16, if_neg hr, State.setReg16_reg16, if_pos rfl]
    rfl
  · rw [State.raiseSp_sp, State.setReg16_sp, if_neg hr]
  · rw [State.raiseSp_sp, State.setReg16_sp, if_pos hr]
    rfl
  · obtain ⟨hqr, hqsp⟩ := not_or.mp (List.mem_pair.not.mp hq)
    rw [State.raiseSp_reg16, if_neg hqsp, State.setReg16_reg16, if_neg hqr]

/-- Settles O24: what POP loads is the word PUSH stored, and SP ends two above two below. -/
theorem pushThenPopRestoresTheRegister : Obligations.PushThenPopRestoresTheRegister := by
  intro r s
  obtain ⟨t, hpush, hsp, hstored, hip, hregs, hflags, hseg, hrun, hfault, hstop⟩ := pushStoresTheRegisterBelowSp r s
  obtain ⟨u, v, hpop, hv, hother, hself, hip', hregs', hflags', hseg', ⟨hrun', hfault', hstop'⟩, -⟩ :=
    popLoadsTheWordAtSp r t
  obtain ⟨-, hlow, hhigh, -⟩ := hstored _ rfl
  have hword : v = if r = .sp then s.sp - 2#16 else s.reg16 r := by
    rw [hv, hsp]
    exact (congrArg₂ wordOfBytes hlow hhigh).trans (wordOfBytes_lowByte_highByte _)
  have hback : s.sp - 2#16 + 2#16 = s.sp := BitVec.sub_add_cancel ..
  refine ⟨t, u, hpush, hpop, fun q _ => ?_, hip'.trans hip, hflags'.trans hflags, fun q => (hseg' q).trans (hseg q),
    hrun'.trans hrun, hfault'.trans hfault, hstop'.trans hstop⟩
  by_cases hr : r = .sp
  · rw [if_pos hr] at hword
    by_cases hq : q = .sp
    · rw [hq]
      exact (hself hr).trans (by rw [hword, hback]; rfl)
    · rw [hregs' q (by simp [hr, hq]), hregs q (by simp [hq])]
  · rw [if_neg hr] at hword
    obtain ⟨hload, hraise⟩ := hother hr
    by_cases hq : q = .sp
    · rw [hq]
      exact hraise.trans (by rw [hsp, hback]; rfl)
    · by_cases hqr : q = r
      · rw [hqr, hload, hword]
      · rw [hregs' q (by simp [hq, hqr]), hregs q (by simp [hq])]

/-! ### Moves -/

/-- The load of one byte, which opcodes 0xA0 and 0xA1 share. -/
theorem loadAl_effect (addr : Word) (s : State) :
    ∃ t, loadAl addr s = .next t ∧
      t.reg8 .al = s.byteAt addr.toNat ∧ t.reg8 .ah = s.reg8 .ah ∧ t.ip = s.ip + 2#16 ∧
      SameRegsBut [.ax] s t ∧ SameFlags s t ∧ SameSegments s t ∧ SameSequencer s t ∧ SameMemoryBut [] s t := by
  refine ⟨_, loadAl_eq addr s, by simp [directAddress], by simp, ?_, s.setReg16_advanceIp_frame ..⟩
  rw [State.advanceIp_two, State.setReg8_ip]

/-- Settles O26. -/
theorem movAlLoadsTheByteAtItsAddress : Obligations.MovAlLoadsTheByteAtItsAddress :=
  loadAl_effect

/-- Settles O27: both opcodes are the one load. -/
theorem movA1LoadsOneByteIntoAl : Obligations.MovA1LoadsOneByteIntoAl := by
  intro addr s
  obtain ⟨t, hload, heffect⟩ := loadAl_effect addr s
  exact ⟨t, hload, hload, heffect⟩

/-- Settles O28: the bytes of the word loaded are AX's two views. -/
theorem wordReadingOfA1LoadsAx : Obligations.WordReadingOfA1LoadsAx := by
  intro addr s
  refine ⟨_, loadAx_eq addr s, by simp [Reg8.cell, Reg8.isHigh, directAddress],
    by simp [Reg8.cell, Reg8.isHigh, directAddress], ?_, s.setReg16_advanceIp_frame ..⟩
  rw [State.advanceIp_two, State.setReg16_ip]

/-- Settles O29: a byte write is a word write to the cell. -/
theorem movR8WritesOneByteView : Obligations.MovR8WritesOneByteView := by
  intro r imm s
  refine ⟨_, rfl, by simp, fun q hq => by simp [hq], ?_, s.setReg16_advanceIp_frame ..⟩
  rw [State.advanceIp_one, State.setReg8_ip]

/-- Settles O30. -/
theorem movR16WritesOneRegister : Obligations.MovR16WritesOneRegister := by
  intro r imm s
  refine ⟨_, rfl, by simp, ?_, s.setReg16_advanceIp_frame ..⟩
  rw [State.advanceIp_two, State.setReg16_ip]

/-- Settles O31: the bytes at IP are the encoding of the move, whose handler is known. -/
theorem movImmediateCyclesReadTheirOperandsAtIp : Obligations.MovImmediateCyclesReadTheirOperandsAtIp := by
  refine ⟨fun r s hr hop => ?_, fun r s hr hop => ?_⟩
  · have hw : fetchWindow s =
        encode (.movR8Imm8 r s.operandByte) ++ [s.byteAt ((s.ip + 1#16).toNat + 1)] := by
      rw [fetchWindow_of_opcode hop, BitVec.ofNat_add]; rfl
    obtain ⟨t, hexec, hview, hviews, hip, -⟩ := movR8WritesOneByteView r s.operandByte s.beginCycle
    refine ⟨t, (step_encoded hr hw).trans hexec, hview, hviews, ?_, ?_⟩
    · rw [hip, State.beginCycle_ip, BitVec.add_assoc]; rfl
    · rw [exec_keeps_faultAddr hexec, State.beginCycle_faultAddr]
  · have hw : fetchWindow s =
        encode (.movR16Imm16 r (wordOfBytes s.operandByte (s.byteAt ((s.ip + 1#16).toNat + 1)))) ++ [] := by
      rw [fetchWindow_of_opcode hop, BitVec.ofNat_add, encode, lowByte_wordOfBytes, highByte_wordOfBytes]; rfl
    obtain ⟨t, hexec, hreg, hip, hregs, -⟩ := movR16WritesOneRegister r _ s.beginCycle
    refine ⟨t, (step_encoded hr hw).trans hexec, hreg, hregs, ?_, ?_⟩
    · rw [hip, State.beginCycle_ip, BitVec.add_assoc]; rfl
    · rw [exec_keeps_faultAddr hexec, State.beginCycle_faultAddr]

/-! ### Control transfer -/

/-- Settles O32: JMP is one advance of IP. -/
theorem jmpAddsItsSignedDisplacement : Obligations.JmpAddsItsSignedDisplacement := by
  intro rel s
  refine ⟨_, rfl, ?_, fun q _ => by simp, rfl, fun q => by simp, ⟨rfl, rfl, rfl⟩, fun a _ => rfl⟩
  rw [State.advanceIp_ip_toNat, sext16_eq_toInt, add_assoc]

/-- A running state that a step leaves as it is runs out of any fuel. -/
theorem runLoop_fixed {s : State} (hr : s.run = .running) (hs : step s = .next s) (n : Nat) : runLoop n s = .outOfFuel s := by
  induction n with
  | zero => exact runLoop_zero hr
  | succ n ih => rw [runLoop_succ hr hs, ih]

/-- The cycle of a JMP to itself: one past the displacement byte, less 2, plus 1. -/
theorem step_jmpToItself {s : State} (hr : s.run = .running) (hop : s.opcode = 0xEB) (hrel : s.operandByte = 0xFE#8) :
    step s = .next { s with faultAddr := s.ip } := by
  have hw : fetchWindow s = encode (.jmpRel8 0xFE#8) ++ [s.byteAt ((s.ip + 1#16).toNat + 1)] := by
    rw [fetchWindow_of_opcode hop, hrel]; rfl
  have hip : BitVec.ofInt 16 (((s.ip + 1#16).toNat : Int) + (sext16 0xFE#8 + 1)) = s.ip := by
    apply BitVec.eq_of_toNat_eq
    rw [show sext16 0xFE#8 + 1 = -1 from rfl, BitVec.toNat_ofInt, BitVec.toNat_add, BitVec.toNat_ofNat]
    omega
  rw [step_encoded hr hw, State.beginCycle_eq, exec, execJmpRel8, State.advanceIp, hip]

/-- Settles O33: the state after the first cycle is one that its own cycle leaves as it is. -/
theorem jmpToItselfLoopsForEver : Obligations.JmpToItselfLoopsForEver := by
  intro s hr hop hrel
  have hs := step_jmpToItself hr hop hrel
  refine ⟨hs, fun n => ?_⟩
  rw [runLoop_succ hr hs]
  exact runLoop_fixed (s := s.recordFaultAddr) hr (step_jmpToItself (s := s.recordFaultAddr) hr hop hrel) n

/-- Settles O34. -/
theorem hltHaltsAndRecordsItsAddress : Obligations.HltHaltsAndRecordsItsAddress := by
  refine ⟨fun _ => rfl, fun s hr hop => ?_⟩
  have hs := step_opcodeAlone (i := .hlt) hr hop rfl
  refine ⟨hs, ?_⟩
  rw [stepReport_next hs, hr]
  rfl

/-! ### Word accesses -/

/-- Settles O37: the bound decides between the errors and the accesses, whose bytes are those of the word. -/
theorem wordAccessIsLittleEndianAndWhole : Obligations.WordAccessIsLittleEndianAndWhole := by
  intro a v s
  refine ⟨fun hout => ⟨memRead16_outside hout s, memWrite16_outside hout v s⟩,
    fun hin => ⟨memRead16_inside hin s, _, memWrite16_inside hin v s, ?_⟩⟩
  have hlow := Memory.read_writeWord_low s.mem a (lowByte v) (highByte v)
  have hhigh := Memory.read_writeWord_high s.mem a (lowByte v) (highByte v)
  refine ⟨hlow, hhigh, fun b hb => Memory.read_writeWord_outside _ _ _ _ hb, ?_, s.setMem_frame _⟩
  rw [memRead16_inside hin, State.setMem_byteAt, State.setMem_byteAt, hlow, hhigh, wordOfBytes_lowByte_highByte]

end Sys2Proof.Machine
end

section
/-! PROOFS. 70_reset_and_hazards.md R231 to R240: what the boot loader leaves, the first cycle, an instruction placed by the host, the
host's memory accessor, and the ends of a fuelled run. -/

namespace Sys2Proof.Machine

open Sys2Proof

/-! ### Boot -/

theorem boot_short {image : List Byte} (h : image.length < 512) (initMem : Memory) (fa : Word) :
    boot image initMem fa = none :=
  if_pos h

/-- The launch state of an image that is long enough. -/
theorem boot_long {image : List Byte} (h : 512 ≤ image.length) (initMem : Memory) (fa : Word) :
    boot image initMem fa = some { State.reset with
      faultAddr := fa, mem := Memory.writeBytes 0x7C00 (image.take 512) initMem } :=
  if_neg (Nat.not_lt.mpr h)

/-- The image's bytes in a launch state's memory. -/
theorem read_launch_inside {image : List Byte} {k : Nat} (h : k < image.length) (hk : k < 512) (m : Memory) :
    (Memory.writeBytes 0x7C00 (image.take 512) m).read (0x7C00 + k) = image[k] := by
  rw [Memory.read_writeBytes_inside (by rw [List.length_take]; omega), List.getElem_take]

/-- The other bytes of a launch state's memory. -/
theorem read_launch_outside {image : List Byte} {a : Nat} (h : 512 ≤ image.length) (ha : a < 0x7C00 ∨ 0x7E00 ≤ a) (m : Memory) :
    (Memory.writeBytes 0x7C00 (image.take 512) m).read a = m.read a :=
  Memory.read_writeBytes_outside (by rw [List.length_take]; omega)

/-- Settles O44: memory by what a run of bytes written reads as, the rest as in the reset state. -/
theorem bootLeavesTheLaunchState : Obligations.BootLeavesTheLaunchState := by
  refine ⟨rfl, fun image initMem fa => ⟨fun h => boot_short h initMem fa, fun h => ⟨_, boot_long h initMem fa, ?_⟩⟩⟩
  obtain ⟨hregs, hip, hseg, hflags, -⟩ := resetHoldsTheSpecsValues
  refine ⟨fun k hk hk' => read_launch_inside hk hk' initMem, fun a ha => read_launch_outside h ha initMem,
    hregs, hip, hseg, hflags, fun k hk => ?_, rfl, rfl, rfl⟩
  have hne : k ≠ Flag.interruptEnable.pos := (hk .interruptEnable).symm
  exact (Flag.getLsbD_mask .interruptEnable k).trans (decide_eq_false hne)

/-! ### The first instruction -/

/-- An operand lies in the two bytes after the opcode. -/
theorem takeOperand_take {size : OperandSize} {tail rest : List Byte} {operand : Word}
    (h : takeOperand size tail = some (operand, rest)) :
    ∃ rest', takeOperand size (tail.take 2) = some (operand, rest') := by
  match size, tail with
  | .none, _ => cases h; exact ⟨_, rfl⟩
  | .byte, _ :: _ => cases h; exact ⟨_, rfl⟩
  | .word, _ :: _ :: _ => cases h; exact ⟨_, rfl⟩
  | .byte, [] => cases h
  | .word, [] => cases h
  | .word, [_] => cases h

/-- No instruction is longer than three bytes, so the first three decide which it is. -/
theorem decode_take {bytes rest : List Byte} {i : Instr} (hd : decode bytes = .ok (i, rest)) :
    ∃ rest', decode (bytes.take 3) = .ok (i, rest') := by
  obtain ⟨op, tail, h, operand, hh, ht, rfl, rfl⟩ := decode_ok hd
  obtain ⟨rest', ht'⟩ := takeOperand_take ht
  exact ⟨rest', decode_of_takeOperand hh ht' rfl⟩

/-- The bytes the first cycle reads are the image's first three. -/
theorem fetchWindow_launch {image : List Byte} (h : 512 ≤ image.length) (m : Memory) (fa : Word) :
    fetchWindow { State.reset with faultAddr := fa, mem := Memory.writeBytes 0x7C00 (image.take 512) m } = image.take 3 := by
  match image, h with
  | a :: b :: c :: tail, h =>
    have hbyte : ∀ k (hk : k < 512), (Memory.writeBytes 0x7C00 ((a :: b :: c :: tail).take 512) m).read (0x7C00 + k) =
        (a :: b :: c :: tail)[k] := fun k hk => read_launch_inside (by omega) hk m
    rw [fetchWindow_eq]
    exact congrArg₂ List.cons (hbyte 0 (by decide))
      (congrArg₂ List.cons (hbyte 1 (by decide)) (congrArg₂ List.cons (hbyte 2 (by decide)) rfl))
  | [], h => simp at h
  | [_], h => simp at h
  | [_, _], h => simp at h

/-- Settles O46: the bytes at 0x7C00 are the image's, and decode as the image does. -/
theorem firstCycleRunsTheImagesFirstInstruction : Obligations.FirstCycleRunsTheImagesFirstInstruction := by
  intro image rest initMem fa t i hboot hd
  rcases Nat.lt_or_ge image.length 512 with hshort | hlong
  · rw [boot_short hshort] at hboot
    cases hboot
  · rw [boot_long hlong] at hboot
    obtain rfl := Option.some.inj hboot
    obtain ⟨rest', hd'⟩ := decode_take hd
    rw [← fetchWindow_launch hlong initMem fa] at hd'
    refine ⟨rfl, ?_⟩
    rw [step_decoded rfl hd', State.beginCycle_eq]
    rfl

/-! ### An instruction placed by the host -/

/-- The three indices a cycle reads are three different ones, also where IP wraps. -/
theorem fetchIndices_nodup (s : State) : (fetchIndices s).Nodup := by
  have h := s.ip.isLt
  have hnext : (s.ip + 1#16).toNat = (s.ip.toNat + 1) % 0x10000 := by simp
  simp only [fetchIndices, State.beginCycle_ip, hnext, List.nodup_cons, List.mem_cons, List.not_mem_nil, or_false,
    not_false_eq_true, List.nodup_nil, and_true]
  omega

theorem read_placeBytes_outside {is : List Nat} {a : Nat} (ha : a ∉ is) (vs : List Byte) (m : Memory) :
    (placeBytes is vs m).read a = m.read a := by
  induction is generalizing vs m with
  | nil => rfl
  | cons b is ih =>
    cases vs with
    | nil => rfl
    | cons v vs =>
      obtain ⟨hb, his⟩ := not_or.mp (List.mem_cons.not.mp ha)
      rw [placeBytes, ih his, Memory.read_write, if_neg hb]

/-- Bytes placed at different indices are read back there. -/
theorem map_read_placeBytes {is : List Nat} (hnodup : is.Nodup) {vs : List Byte} (hlen : vs.length = is.length) (m : Memory) :
    is.map (placeBytes is vs m).read = vs := by
  induction is generalizing vs m with
  | nil => exact (List.eq_nil_of_length_eq_zero hlen).symm
  | cons a is ih =>
    obtain ⟨ha, his⟩ := List.nodup_cons.mp hnodup
    match vs, hlen with
    | v :: vs, hlen =>
      have hhead : (placeBytes is vs (m.write a v)).read a = v := by
        rw [read_placeBytes_outside ha, Memory.read_write, if_pos rfl]
      exact congrArg₂ List.cons hhead (ih his (Nat.succ.inj hlen) _)

/-- A cycle from a state with three bytes placed reads those bytes. -/
theorem fetchWindow_withInstruction (s : State) {bytes : List Byte} (hlen : bytes.length = 3) :
    fetchWindow (s.withInstruction bytes) = bytes :=
  map_read_placeBytes (fetchIndices_nodup s) hlen s.mem

/-- Settles O47: the bytes placed are the ones fetched, and placing them writes memory at those indices alone. -/
theorem placedInstructionRunsNext : Obligations.PlacedInstructionRunsNext := by
  intro s nbits w i hword
  have hd : ∃ rest, decode (tableBytes nbits w) = .ok (i, rest) := by
    unfold decodeTableWord at hword
    split at hword
    next j rest hd => exact ⟨rest, by rw [hd, Option.some.inj hword]⟩
    next => cases hword
  obtain ⟨rest, hd⟩ := hd
  rw [← fetchWindow_withInstruction s (bytes := tableBytes nbits w) rfl] at hd
  exact ⟨step_decoded rfl hd, fun r _ => by cases r <;> rfl, rfl, rfl, fun r => by cases r <;> rfl,
    fun a ha => read_placeBytes_outside ha _ _⟩

/-! ### The host port -/

/-- Settles O48: the bound decides, and the bytes are those of a run that is read. -/
theorem hostReadsExactlyTheBoundedRanges : Obligations.HostReadsExactlyTheBoundedRanges :=
  fun _ _ _ => ⟨fun hin => ⟨_, if_pos hin, Memory.length_readBytes .., fun _ hk => Memory.getElem_readBytes hk⟩,
    fun hout => if_neg hout⟩

/-- What the end of a run with fuel `n` from `s` says of it. -/
def EndsAs (n : Nat) (s : State) : RunEnd → Prop
  | .halted t => t.run = .halted ∧ (∃ m ≤ n, RunReaches m s t) ∧ ∀ k, runLoop (n + k) s = .halted t
  | .faulted t => t.run = .faulted ∧ (∃ m ≤ n, RunReaches m s t) ∧ ∀ k, runLoop (n + k) s = .faulted t
  | .outOfFuel t => t.run = .running ∧ RunReaches n s t
  | .noNextState _ => False

/-- A cycle before the run only lengthens it. -/
theorem EndsAs.cons {n : Nat} {s u : State} {e : RunEnd} (hr : s.run = .running) (hs : step s = .next u)
    (h : EndsAs n u e) : EndsAs (n + 1) s e := by
  have hloop : ∀ k, runLoop (n + 1 + k) s = runLoop (n + k) u := fun k => by
    rw [Nat.add_right_comm, runLoop_succ hr hs]
  cases e with
  | halted t =>
    obtain ⟨hend, ⟨m, hm, hreach⟩, hmore⟩ := h
    exact ⟨hend, ⟨m + 1, by omega, hreach.cons hr hs⟩, fun k => (hloop k).trans (hmore k)⟩
  | faulted t =>
    obtain ⟨hend, ⟨m, hm, hreach⟩, hmore⟩ := h
    exact ⟨hend, ⟨m + 1, by omega, hreach.cons hr hs⟩, fun k => (hloop k).trans (hmore k)⟩
  | outOfFuel t =>
    obtain ⟨hend, hreach⟩ := h
    exact ⟨hend, hreach.cons hr hs⟩
  | noNextState t => exact h

/-- The run of a stopped machine ends where it is. -/
theorem endsAs_stopped {s : State} (h : s.run ≠ .running) (n : Nat) : EndsAs n s (runLoop n s) := by
  cases hr : s.run with
  | running => exact absurd hr h
  | halted =>
    rw [runLoop_halted hr]
    exact ⟨hr, ⟨0, Nat.zero_le n, .zero s⟩, fun k => runLoop_halted hr (n + k)⟩
  | faulted =>
    rw [runLoop_faulted hr]
    exact ⟨hr, ⟨0, Nat.zero_le n, .zero s⟩, fun k => runLoop_faulted hr (n + k)⟩

/-- Every run ends as its report says. -/
theorem runLoop_endsAs (n : Nat) (s : State) : EndsAs n s (runLoop n s) := by
  induction n generalizing s with
  | zero =>
    by_cases hr : s.run = .running
    · rw [runLoop_zero hr]
      exact ⟨hr, .zero s⟩
    · exact endsAs_stopped hr 0
  | succ n ih =>
    by_cases hr : s.run = .running
    · obtain ⟨u, hs⟩ := step_next s
      rw [runLoop_succ hr hs]
      exact (ih u).cons hr hs
    · exact endsAs_stopped hr (n + 1)

/-- Settles O49: each report read off the end of the run. -/
theorem runEndsAtTheFirstStoppedState : Obligations.RunEndsAtTheFirstStoppedState := by
  intro n s t
  have hend := runLoop_endsAs n s
  refine ⟨fun h => ?_, fun h => ?_, fun h => ?_, fun h => ?_⟩ <;> rw [h] at hend
  · obtain ⟨hrun, hreach, hmore⟩ := hend
    exact ⟨hrun, decide_eq_true hrun, hreach, hmore⟩
  · obtain ⟨hrun, hreach, hmore⟩ := hend
    exact ⟨hrun, by simp [isHalted, hrun], hreach, hmore⟩
  · exact hend
  · exact hend

end Sys2Proof.Machine
end
